-- ==== Sys2Proof/Word.lean ====
section
/-! DEFINITION. The word types of the CORE (00_scope.md R8, R9) and the closed sets of names that its latches and its
Decode function share: opKind and branchKind of 10_state.md R32, the control record, and the names of the words that
Decode rejects (30_encoding.md R98). -/

namespace Sys2Proof

/-- A register value, an address or an instruction word: a 32-bit pattern (R9). -/
abbrev Word := BitVec 32

/-- One byte of the memory image (R40). -/
abbrev Byte := BitVec 8

/-- A register index, 0 to 31 (R21). -/
abbrev RegIdx := BitVec 5

/-- The instruction's identity as decoded (R32): one of the 32 admitted mnemonics, or BUBBLE. -/
inductive OpKind
  | BUBBLE
  | ADD | SUB | SLL | SLT | SLTU | XOR | SRL | SRA | OR | AND
  | ADDI | SLTI | SLTIU | XORI | ORI | ANDI | SLLI | SRLI | SRAI
  | LB | LBU | LW | SB | SW
  | BEQ | BNE | BLT | BGE | BLTU | BGEU | JAL | JALR
deriving DecidableEq, Repr

/-- The branchKind control field (R32). -/
inductive BranchKind
  | NONE | BEQ | BNE | BLT | BGE | BLTU | BGEU | JAL | JALR
deriving DecidableEq, Repr

/-- The control record that every latch but FD carries (R32). -/
structure ControlFields where
  destReg        : RegIdx
  regWriteEnable : Bool
  opKind         : OpKind
  memReadEnable  : Bool
  memWriteEnable : Bool
  branchKind     : BranchKind
deriving DecidableEq, Repr

/-- The control record of a bubble (R33). -/
def ControlFields.bubble : ControlFields :=
  { destReg := 0, regWriteEnable := false, opKind := .BUBBLE, memReadEnable := false, memWriteEnable := false,
    branchKind := .NONE }

/-- Why a nonzero word has no row of the opcode table, by the classes that R98 lists. -/
inductive Unrecognised
  /-- Bits [6:0] are none of the seven major opcodes of R95 (LUI, AUIPC, MISC-MEM, SYSTEM, custom, bits [1:0] not 11, …). -/
  | majorOpcode
  /-- An OP word whose funct7 is neither 0b0000000 nor, with funct3 000 or 101, 0b0100000. -/
  | opFunct7
  /-- An OP-IMM shift word with any other funct7. -/
  | shiftFunct7
  /-- A LOAD word with funct3 001, 011, 101, 110 or 111. -/
  | loadFunct3
  /-- A STORE word with funct3 001 or 011 to 111. -/
  | storeFunct3
  /-- A BRANCH word with funct3 010 or 011. -/
  | branchFunct3
  /-- A JALR word with funct3 other than 000. -/
  | jalrFunct3
deriving DecidableEq, Repr

end Sys2Proof
end

