-- ==== Sys2Proof/Machine/Flags.lean ====
section
/-! DEFINITION. The CORE has no status flags, condition codes or predicate registers (10_state.md R26): no instruction writes or reads a
flag, so no flag computation stands here. What takes their place are the comparisons of two operand values inside the Execute stage,
`<s` and `<u` of 00_scope.md R9, and `bool(c)`. -/

namespace Sys2Proof.Machine

/-- `a <s b`: `signed(a) < signed(b)`. -/
def lessSigned (a b : Word) : Bool := decide (a.toInt < b.toInt)

/-- `a <u b`. -/
def lessUnsigned (a b : Word) : Bool := decide (a.toNat < b.toNat)

/-- `bool(c)`: 1 if `c` holds, else 0. -/
def boolWord (c : Bool) : Word := if c then 1 else 0

end Sys2Proof.Machine
end

