-- ==== Sys2Proof/Config.lean ====
section
/-! DEFINITION. The parameters of the CORE (00_scope.md R7) that the spec leaves to the one who constructs the machine: `IMEM_BASE`,
`REG_INIT` and `DATA_INIT`. They are inputs of construction, not state (10_state.md R38). -/

namespace Sys2Proof

/-- The parameters of construction (R7). -/
structure Params where
  /-- `IMEM_BASE`, an OPEN parameter: a 32-bit address that is a multiple of 4. -/
  imemBase : Word
  /-- `REG_INIT`; its entry 0 is never used (R200: `x[0] <- 0`). -/
  regInit  : Vector Word 32
  /-- `DATA_INIT`, address and byte; a later pair overwrites an earlier one with the same address. -/
  dataInit : List (Word × Byte)
deriving DecidableEq, Repr

/-- R7: `IMEM_BASE` is a multiple of 4. -/
def Params.wellFormed (p : Params) : Bool := p.imemBase.toNat % 4 == 0

/-- The parameters of `State.reset`: `REG_INIT` all zero and `DATA_INIT` empty are the spec's defaults (R7).
DESIGN CHOICE (log 1): `IMEM_BASE` is 0, the value of the spec's examples; the spec leaves it open, so no claim rests on it. -/
def Params.default : Params := { imemBase := 0, regInit := Vector.replicate 32 0, dataInit := [] }

end Sys2Proof
end

