-- ==== Sys2Proof/Syntax.lean ====
section
/-! DEFINITION. The instructions of the CORE: one constructor per row of spec/opcode_table.json (30_encoding.md R86, R97), with the operands
of R63. An immediate, offset or shift amount is the 32-bit value that Decode places in the latch (R71 to R75); which values an encoding
admits is checked in WellFormed.lean (R83). -/

namespace Sys2Proof

inductive Instr
  | add (rd rs1 rs2 : RegIdx)
  | sub (rd rs1 rs2 : RegIdx)
  | sll (rd rs1 rs2 : RegIdx)
  | slt (rd rs1 rs2 : RegIdx)
  | sltu (rd rs1 rs2 : RegIdx)
  | xor (rd rs1 rs2 : RegIdx)
  | srl (rd rs1 rs2 : RegIdx)
  | sra (rd rs1 rs2 : RegIdx)
  | or (rd rs1 rs2 : RegIdx)
  | and (rd rs1 rs2 : RegIdx)
  | addi (rd rs1 : RegIdx) (imm : Word)
  | slti (rd rs1 : RegIdx) (imm : Word)
  | sltiu (rd rs1 : RegIdx) (imm : Word)
  | xori (rd rs1 : RegIdx) (imm : Word)
  | ori (rd rs1 : RegIdx) (imm : Word)
  | andi (rd rs1 : RegIdx) (imm : Word)
  | slli (rd rs1 : RegIdx) (shamt : Word)
  | srli (rd rs1 : RegIdx) (shamt : Word)
  | srai (rd rs1 : RegIdx) (shamt : Word)
  | lb (rd rs1 : RegIdx) (imm : Word)
  | lbu (rd rs1 : RegIdx) (imm : Word)
  | lw (rd rs1 : RegIdx) (imm : Word)
  | sb (rs2 rs1 : RegIdx) (imm : Word)
  | sw (rs2 rs1 : RegIdx) (imm : Word)
  | beq (rs1 rs2 : RegIdx) (offset : Word)
  | bne (rs1 rs2 : RegIdx) (offset : Word)
  | blt (rs1 rs2 : RegIdx) (offset : Word)
  | bge (rs1 rs2 : RegIdx) (offset : Word)
  | bltu (rs1 rs2 : RegIdx) (offset : Word)
  | bgeu (rs1 rs2 : RegIdx) (offset : Word)
  | jal (rd : RegIdx) (offset : Word)
  | jalr (rd rs1 : RegIdx) (imm : Word)
  /-- The all-zero word (R97). -/
  | bubble
deriving DecidableEq, Repr

end Sys2Proof
end

