-- ==== Sys2Proof/WellFormed.lean ====
section
/-! DEFINITION. Which instructions an encoding admits: the ranges of 30_encoding.md R83, on the signed reading of the operand value. -/

namespace Sys2Proof

/-- I-format immediate and S-format offset: [-2048, 2047] (R83). -/
def immFits12 (v : Word) : Bool := decide (-2048 ≤ v.toInt ∧ v.toInt ≤ 2047)

/-- Shift amount: [0, 31] (R83). -/
def shamtFits (v : Word) : Bool := decide (v.toNat ≤ 31)

/-- Branch offset: even, in [-4096, 4094] (R83). -/
def branchFits (v : Word) : Bool := decide (v.toInt % 2 = 0 ∧ -4096 ≤ v.toInt ∧ v.toInt ≤ 4094)

/-- `jal` offset: even, in [-1048576, 1048574] (R83). -/
def jumpFits (v : Word) : Bool := decide (v.toInt % 2 = 0 ∧ -1048576 ≤ v.toInt ∧ v.toInt ≤ 1048574)

/-- The instruction has an encoding: every operand value is in its range (R83). Register indices are 5 bits wide and always fit. -/
def Instr.wellFormed : Instr → Bool
  | .add _ _ _ => true
  | .sub _ _ _ => true
  | .sll _ _ _ => true
  | .slt _ _ _ => true
  | .sltu _ _ _ => true
  | .xor _ _ _ => true
  | .srl _ _ _ => true
  | .sra _ _ _ => true
  | .or _ _ _ => true
  | .and _ _ _ => true
  | .addi _ _ imm => immFits12 imm
  | .slti _ _ imm => immFits12 imm
  | .sltiu _ _ imm => immFits12 imm
  | .xori _ _ imm => immFits12 imm
  | .ori _ _ imm => immFits12 imm
  | .andi _ _ imm => immFits12 imm
  | .slli _ _ shamt => shamtFits shamt
  | .srli _ _ shamt => shamtFits shamt
  | .srai _ _ shamt => shamtFits shamt
  | .lb _ _ imm => immFits12 imm
  | .lbu _ _ imm => immFits12 imm
  | .lw _ _ imm => immFits12 imm
  | .sb _ _ imm => immFits12 imm
  | .sw _ _ imm => immFits12 imm
  | .beq _ _ offset => branchFits offset
  | .bne _ _ offset => branchFits offset
  | .blt _ _ offset => branchFits offset
  | .bge _ _ offset => branchFits offset
  | .bltu _ _ offset => branchFits offset
  | .bgeu _ _ offset => branchFits offset
  | .jal _ offset => jumpFits offset
  | .jalr _ _ imm => immFits12 imm
  | .bubble => true

end Sys2Proof
end

