-- ==== Sys2Proof/Decode.lean ====
section
/-! DEFINITION. The Decode function (30_encoding.md R95 to R100) and the word encoder (R65 to R70, R76 to R79). Decode is total on every
32-bit word: it names the row of the opcode table the word matches, or says by name why there is none. -/

namespace Sys2Proof

-- The fields of a word, and the immediates of R71 to R75.

/-- Bits [6:0]. -/
def opcodeOf (w : Word) : BitVec 7 := w.extractLsb' 0 7

/-- Bits [11:7]. -/
def rdOf (w : Word) : RegIdx := w.extractLsb' 7 5

/-- Bits [14:12]. -/
def funct3Of (w : Word) : BitVec 3 := w.extractLsb' 12 3

/-- Bits [19:15]. -/
def rs1Of (w : Word) : RegIdx := w.extractLsb' 15 5

/-- Bits [24:20]. -/
def rs2Of (w : Word) : RegIdx := w.extractLsb' 20 5

/-- Bits [31:25]. -/
def funct7Of (w : Word) : BitVec 7 := w.extractLsb' 25 7

/-- `immI(w) = sext_12(w[31:20])` (R71). -/
def immI (w : Word) : Word := (w.extractLsb' 20 12).signExtend 32

/-- `immS(w) = sext_12({w[31:25], w[11:7]})` (R72). -/
def immS (w : Word) : Word := (w.extractLsb' 25 7 ++ w.extractLsb' 7 5).signExtend 32

/-- `immB(w) = sext_13({w[31], w[7], w[30:25], w[11:8], 1'b0})` (R73). -/
def immB (w : Word) : Word :=
  (w.extractLsb' 31 1 ++ w.extractLsb' 7 1 ++ w.extractLsb' 25 6 ++ w.extractLsb' 8 4 ++ 0#1).signExtend 32

/-- `immJ(w) = sext_21({w[31], w[19:12], w[20], w[30:21], 1'b0})` (R74). -/
def immJ (w : Word) : Word :=
  (w.extractLsb' 31 1 ++ w.extractLsb' 12 8 ++ w.extractLsb' 20 1 ++ w.extractLsb' 21 10 ++ 0#1).signExtend 32

/-- `shamt(w) = zext_5(w[24:20])` (R75). -/
def shamtOf (w : Word) : Word := (w.extractLsb' 20 5).setWidth 32

-- From a word to its opKind (R95, R96).

/-- The OP rows, by funct3 and funct7. -/
def kindOp (f3 : BitVec 3) (f7 : BitVec 7) : Except Unrecognised OpKind :=
  if f7 = 0b0000000#7 then
    match f3 with
    | 0b000 => .ok .ADD
    | 0b001 => .ok .SLL
    | 0b010 => .ok .SLT
    | 0b011 => .ok .SLTU
    | 0b100 => .ok .XOR
    | 0b101 => .ok .SRL
    | 0b110 => .ok .OR
    | 0b111 => .ok .AND
  else if f7 = 0b0100000#7 then
    if f3 = 0b000#3 then .ok .SUB
    else if f3 = 0b101#3 then .ok .SRA
    else .error .opFunct7
  else .error .opFunct7

/-- The OP-IMM rows, by funct3 and, for the shifts, funct7. -/
def kindOpImm (f3 : BitVec 3) (f7 : BitVec 7) : Except Unrecognised OpKind :=
  match f3 with
  | 0b000 => .ok .ADDI
  | 0b010 => .ok .SLTI
  | 0b011 => .ok .SLTIU
  | 0b100 => .ok .XORI
  | 0b110 => .ok .ORI
  | 0b111 => .ok .ANDI
  | 0b001 => if f7 = 0b0000000#7 then .ok .SLLI else .error .shiftFunct7
  | 0b101 =>
    if f7 = 0b0000000#7 then .ok .SRLI
    else if f7 = 0b0100000#7 then .ok .SRAI
    else .error .shiftFunct7

/-- The LOAD rows. -/
def kindLoad (f3 : BitVec 3) : Except Unrecognised OpKind :=
  if f3 = 0b000#3 then .ok .LB
  else if f3 = 0b010#3 then .ok .LW
  else if f3 = 0b100#3 then .ok .LBU
  else .error .loadFunct3

/-- The STORE rows. -/
def kindStore (f3 : BitVec 3) : Except Unrecognised OpKind :=
  if f3 = 0b000#3 then .ok .SB
  else if f3 = 0b010#3 then .ok .SW
  else .error .storeFunct3

/-- The BRANCH rows. -/
def kindBranch (f3 : BitVec 3) : Except Unrecognised OpKind :=
  match f3 with
  | 0b000 => .ok .BEQ
  | 0b001 => .ok .BNE
  | 0b100 => .ok .BLT
  | 0b101 => .ok .BGE
  | 0b110 => .ok .BLTU
  | 0b111 => .ok .BGEU
  | 0b010 => .error .branchFunct3
  | 0b011 => .error .branchFunct3

/-- The major opcodes of R95. -/
def kindOfFields (op : BitVec 7) (f3 : BitVec 3) (f7 : BitVec 7) : Except Unrecognised OpKind :=
  if op = 0b0110011#7 then kindOp f3 f7
  else if op = 0b0010011#7 then kindOpImm f3 f7
  else if op = 0b0000011#7 then kindLoad f3
  else if op = 0b0100011#7 then kindStore f3
  else if op = 0b1100011#7 then kindBranch f3
  else if op = 0b1101111#7 then .ok .JAL
  else if op = 0b1100111#7 then (if f3 = 0b000#3 then .ok .JALR else .error .jalrFunct3)
  else .error .majorOpcode

/-- The opKind of the opcode-table row that the word matches (R96), the all-zero word being the BUBBLE row (R97);
the name of the class of R98 where there is no row. -/
def kindOfWord (w : Word) : Except Unrecognised OpKind :=
  if w = 0 then .ok .BUBBLE else kindOfFields (opcodeOf w) (funct3Of w) (funct7Of w)

-- Control fields and immediate of each opKind (R100).

/-- The control fields of R100, with `destReg` = `rd` where R100 says w[11:7]. -/
def controlOf (k : OpKind) (rd : RegIdx) : ControlFields :=
  match k with
  | .BUBBLE => ControlFields.bubble
  | .ADD | .SUB | .SLL | .SLT | .SLTU | .XOR | .SRL | .SRA | .OR | .AND
  | .ADDI | .SLTI | .SLTIU | .XORI | .ORI | .ANDI | .SLLI | .SRLI | .SRAI =>
    { destReg := rd, regWriteEnable := true, opKind := k, memReadEnable := false, memWriteEnable := false, branchKind := .NONE }
  | .LB | .LBU | .LW =>
    { destReg := rd, regWriteEnable := true, opKind := k, memReadEnable := true, memWriteEnable := false, branchKind := .NONE }
  | .SB | .SW =>
    { destReg := 0, regWriteEnable := false, opKind := k, memReadEnable := false, memWriteEnable := true, branchKind := .NONE }
  | .BEQ => { ControlFields.bubble with opKind := .BEQ, branchKind := .BEQ }
  | .BNE => { ControlFields.bubble with opKind := .BNE, branchKind := .BNE }
  | .BLT => { ControlFields.bubble with opKind := .BLT, branchKind := .BLT }
  | .BGE => { ControlFields.bubble with opKind := .BGE, branchKind := .BGE }
  | .BLTU => { ControlFields.bubble with opKind := .BLTU, branchKind := .BLTU }
  | .BGEU => { ControlFields.bubble with opKind := .BGEU, branchKind := .BGEU }
  | .JAL =>
    { destReg := rd, regWriteEnable := true, opKind := .JAL, memReadEnable := false, memWriteEnable := false, branchKind := .JAL }
  | .JALR =>
    { destReg := rd, regWriteEnable := true, opKind := .JALR, memReadEnable := false, memWriteEnable := false, branchKind := .JALR }

/-- The immediate column of R100: 0 for R format and bubbles, `shamt` for the immediate shifts. -/
def immediateOf (k : OpKind) (w : Word) : Word :=
  match k with
  | .BUBBLE | .ADD | .SUB | .SLL | .SLT | .SLTU | .XOR | .SRL | .SRA | .OR | .AND => 0
  | .ADDI | .SLTI | .SLTIU | .XORI | .ORI | .ANDI | .LB | .LBU | .LW | .JALR => immI w
  | .SLLI | .SRLI | .SRAI => shamtOf w
  | .SB | .SW => immS w
  | .BEQ | .BNE | .BLT | .BGE | .BLTU | .BGEU => immB w
  | .JAL => immJ w

/-- The instruction of an opKind with the given operands; an operand that the instruction does not have is dropped. -/
def Instr.build (k : OpKind) (rd rs1 rs2 : RegIdx) (imm : Word) : Instr :=
  match k with
  | .BUBBLE => .bubble
  | .ADD => .add rd rs1 rs2
  | .SUB => .sub rd rs1 rs2
  | .SLL => .sll rd rs1 rs2
  | .SLT => .slt rd rs1 rs2
  | .SLTU => .sltu rd rs1 rs2
  | .XOR => .xor rd rs1 rs2
  | .SRL => .srl rd rs1 rs2
  | .SRA => .sra rd rs1 rs2
  | .OR => .or rd rs1 rs2
  | .AND => .and rd rs1 rs2
  | .ADDI => .addi rd rs1 imm
  | .SLTI => .slti rd rs1 imm
  | .SLTIU => .sltiu rd rs1 imm
  | .XORI => .xori rd rs1 imm
  | .ORI => .ori rd rs1 imm
  | .ANDI => .andi rd rs1 imm
  | .SLLI => .slli rd rs1 imm
  | .SRLI => .srli rd rs1 imm
  | .SRAI => .srai rd rs1 imm
  | .LB => .lb rd rs1 imm
  | .LBU => .lbu rd rs1 imm
  | .LW => .lw rd rs1 imm
  | .SB => .sb rs2 rs1 imm
  | .SW => .sw rs2 rs1 imm
  | .BEQ => .beq rs1 rs2 imm
  | .BNE => .bne rs1 rs2 imm
  | .BLT => .blt rs1 rs2 imm
  | .BGE => .bge rs1 rs2 imm
  | .BLTU => .bltu rs1 rs2 imm
  | .BGEU => .bgeu rs1 rs2 imm
  | .JAL => .jal rd imm
  | .JALR => .jalr rd rs1 imm

/-- The opKind of an instruction. -/
def Instr.kind : Instr → OpKind
  | .add _ _ _ => .ADD
  | .sub _ _ _ => .SUB
  | .sll _ _ _ => .SLL
  | .slt _ _ _ => .SLT
  | .sltu _ _ _ => .SLTU
  | .xor _ _ _ => .XOR
  | .srl _ _ _ => .SRL
  | .sra _ _ _ => .SRA
  | .or _ _ _ => .OR
  | .and _ _ _ => .AND
  | .addi _ _ _ => .ADDI
  | .slti _ _ _ => .SLTI
  | .sltiu _ _ _ => .SLTIU
  | .xori _ _ _ => .XORI
  | .ori _ _ _ => .ORI
  | .andi _ _ _ => .ANDI
  | .slli _ _ _ => .SLLI
  | .srli _ _ _ => .SRLI
  | .srai _ _ _ => .SRAI
  | .lb _ _ _ => .LB
  | .lbu _ _ _ => .LBU
  | .lw _ _ _ => .LW
  | .sb _ _ _ => .SB
  | .sw _ _ _ => .SW
  | .beq _ _ _ => .BEQ
  | .bne _ _ _ => .BNE
  | .blt _ _ _ => .BLT
  | .bge _ _ _ => .BGE
  | .bltu _ _ _ => .BLTU
  | .bgeu _ _ _ => .BGEU
  | .jal _ _ => .JAL
  | .jalr _ _ _ => .JALR
  | .bubble => .BUBBLE

/-- The instruction a word spells, or the name of the class of unrecognised words it belongs to. -/
def decodeWord (w : Word) : Except Unrecognised Instr :=
  match kindOfWord w with
  | .ok k => .ok (Instr.build k (rdOf w) (rs1Of w) (rs2Of w) (immediateOf k w))
  | .error u => .error u

/-- The record that the Decode function answers (R96). -/
structure Decoded where
  control      : ControlFields
  immediate    : Word
  rs1          : RegIdx
  rs2          : RegIdx
  unrecognised : Bool
deriving DecidableEq, Repr

/-- The Decode function (R96): total, the unrecognised word being a bubble with a mark (R98). -/
def decode (w : Word) : Decoded :=
  match kindOfWord w with
  | .ok k => { control := controlOf k (rdOf w), immediate := immediateOf k w, rs1 := rs1Of w, rs2 := rs2Of w, unrecognised := false }
  | .error _ => { control := ControlFields.bubble, immediate := 0, rs1 := rs1Of w, rs2 := rs2Of w, unrecognised := true }

-- Words as the bytes that hold them, low-order byte first (20_memory.md R42).

/-- The four bytes of a word, at the lowest address first. -/
def bytesOfWord (w : Word) : List Byte :=
  [w.extractLsb' 0 8, w.extractLsb' 8 8, w.extractLsb' 16 8, w.extractLsb' 24 8]

/-- The word of four bytes, `b0` at the lowest address (R42). -/
def wordOfBytes (b0 b1 b2 b3 : Byte) : Word := b3 ++ b2 ++ b1 ++ b0

/-- Decoding from a byte stream: every instruction is four bytes (R64); fewer than four are no instruction. -/
def decodeBytes : List Byte → Option (Except Unrecognised Instr × List Byte)
  | b0 :: b1 :: b2 :: b3 :: rest => some (decodeWord (wordOfBytes b0 b1 b2 b3), rest)
  | _ => none

/-- The instruction the decoder reads from a row's bits, numbered as spec/opcode_table.json numbers them, every bit above `nbits` 0;
`none` where the decoder refuses the word. -/
def decodeTableWord (nbits w : Nat) : Option Instr :=
  match decodeBytes (bytesOfWord (BitVec.ofNat 32 (w % 2 ^ nbits))) with
  | some (.ok i, _) => some i
  | _ => none

-- The encoder of a word (R65 to R70, R76 to R79).

/-- R format (R65); the shift variant of I format (R67) has the same fields, `shamt` in place of rs2. -/
def packR (f7 : BitVec 7) (rs2 rs1 : BitVec 5) (f3 : BitVec 3) (rd : BitVec 5) (op : BitVec 7) : Word :=
  f7 ++ rs2 ++ rs1 ++ f3 ++ rd ++ op

/-- I format (R66), `w[31:20] <- v[11:0]` (R76). -/
def packI (v : Word) (rs1 : BitVec 5) (f3 : BitVec 3) (rd : BitVec 5) (op : BitVec 7) : Word :=
  v.extractLsb' 0 12 ++ rs1 ++ f3 ++ rd ++ op

/-- I format, shift variant (R67), `w[24:20] <- v[4:0]`, `w[31:25] <- funct7` (R76). -/
def packShift (f7 : BitVec 7) (v : Word) (rs1 : BitVec 5) (f3 : BitVec 3) (rd : BitVec 5) : Word :=
  packR f7 (v.extractLsb' 0 5) rs1 f3 rd 0b0010011#7

/-- S format (R68), `w[31:25] <- v[11:5]`, `w[11:7] <- v[4:0]` (R77). -/
def packS (v : Word) (rs2 rs1 : BitVec 5) (f3 : BitVec 3) : Word :=
  v.extractLsb' 5 7 ++ rs2 ++ rs1 ++ f3 ++ v.extractLsb' 0 5 ++ 0b0100011#7

/-- B format (R69): `w[31] <- v[12]`, `w[30:25] <- v[10:5]`, `w[11:8] <- v[4:1]`, `w[7] <- v[11]` (R78). -/
def packB (v : Word) (rs2 rs1 : BitVec 5) (f3 : BitVec 3) : Word :=
  v.extractLsb' 12 1 ++ v.extractLsb' 5 6 ++ rs2 ++ rs1 ++ f3 ++ v.extractLsb' 1 4 ++ v.extractLsb' 11 1 ++ 0b1100011#7

/-- J format (R70): `w[31] <- v[20]`, `w[30:21] <- v[10:1]`, `w[20] <- v[11]`, `w[19:12] <- v[19:12]` (R79). -/
def packJ (v : Word) (rd : BitVec 5) : Word :=
  v.extractLsb' 20 1 ++ v.extractLsb' 1 10 ++ v.extractLsb' 11 1 ++ v.extractLsb' 12 8 ++ rd ++ 0b1101111#7

/-- The word of an instruction (the field values are those of each rule R141 to R179). -/
def encode : Instr → Word
  | .add rd rs1 rs2 => packR 0b0000000 rs2 rs1 0b000 rd 0b0110011
  | .sub rd rs1 rs2 => packR 0b0100000 rs2 rs1 0b000 rd 0b0110011
  | .sll rd rs1 rs2 => packR 0b0000000 rs2 rs1 0b001 rd 0b0110011
  | .slt rd rs1 rs2 => packR 0b0000000 rs2 rs1 0b010 rd 0b0110011
  | .sltu rd rs1 rs2 => packR 0b0000000 rs2 rs1 0b011 rd 0b0110011
  | .xor rd rs1 rs2 => packR 0b0000000 rs2 rs1 0b100 rd 0b0110011
  | .srl rd rs1 rs2 => packR 0b0000000 rs2 rs1 0b101 rd 0b0110011
  | .sra rd rs1 rs2 => packR 0b0100000 rs2 rs1 0b101 rd 0b0110011
  | .or rd rs1 rs2 => packR 0b0000000 rs2 rs1 0b110 rd 0b0110011
  | .and rd rs1 rs2 => packR 0b0000000 rs2 rs1 0b111 rd 0b0110011
  | .addi rd rs1 imm => packI imm rs1 0b000 rd 0b0010011
  | .slti rd rs1 imm => packI imm rs1 0b010 rd 0b0010011
  | .sltiu rd rs1 imm => packI imm rs1 0b011 rd 0b0010011
  | .xori rd rs1 imm => packI imm rs1 0b100 rd 0b0010011
  | .ori rd rs1 imm => packI imm rs1 0b110 rd 0b0010011
  | .andi rd rs1 imm => packI imm rs1 0b111 rd 0b0010011
  | .slli rd rs1 shamt => packShift 0b0000000 shamt rs1 0b001 rd
  | .srli rd rs1 shamt => packShift 0b0000000 shamt rs1 0b101 rd
  | .srai rd rs1 shamt => packShift 0b0100000 shamt rs1 0b101 rd
  | .lb rd rs1 imm => packI imm rs1 0b000 rd 0b0000011
  | .lbu rd rs1 imm => packI imm rs1 0b100 rd 0b0000011
  | .lw rd rs1 imm => packI imm rs1 0b010 rd 0b0000011
  | .sb rs2 rs1 imm => packS imm rs2 rs1 0b000
  | .sw rs2 rs1 imm => packS imm rs2 rs1 0b010
  | .beq rs1 rs2 offset => packB offset rs2 rs1 0b000
  | .bne rs1 rs2 offset => packB offset rs2 rs1 0b001
  | .blt rs1 rs2 offset => packB offset rs2 rs1 0b100
  | .bge rs1 rs2 offset => packB offset rs2 rs1 0b101
  | .bltu rs1 rs2 offset => packB offset rs2 rs1 0b110
  | .bgeu rs1 rs2 offset => packB offset rs2 rs1 0b111
  | .jal rd offset => packJ offset rd
  | .jalr rd rs1 imm => packI imm rs1 0b000 rd 0b1100111
  | .bubble => 0

-- The opcode table itself, for the statement that Decode follows it (R96, R102).

/-- One row of spec/opcode_table.json: a word `w` matches it when `w &&& mask = pattern`. -/
structure OpcodeRow where
  kind    : OpKind
  pattern : Word
  mask    : Word
deriving DecidableEq, Repr

def opcodeRowsOp : List OpcodeRow :=
  [ ⟨.ADD, 0x00000033, 0xFE00707F⟩, ⟨.SUB, 0x40000033, 0xFE00707F⟩, ⟨.SLL, 0x00001033, 0xFE00707F⟩,
    ⟨.SLT, 0x00002033, 0xFE00707F⟩, ⟨.SLTU, 0x00003033, 0xFE00707F⟩, ⟨.XOR, 0x00004033, 0xFE00707F⟩,
    ⟨.SRL, 0x00005033, 0xFE00707F⟩, ⟨.SRA, 0x40005033, 0xFE00707F⟩, ⟨.OR, 0x00006033, 0xFE00707F⟩,
    ⟨.AND, 0x00007033, 0xFE00707F⟩ ]

def opcodeRowsOpImm : List OpcodeRow :=
  [ ⟨.ADDI, 0x00000013, 0x0000707F⟩, ⟨.SLTI, 0x00002013, 0x0000707F⟩, ⟨.SLTIU, 0x00003013, 0x0000707F⟩,
    ⟨.XORI, 0x00004013, 0x0000707F⟩, ⟨.ORI, 0x00006013, 0x0000707F⟩, ⟨.ANDI, 0x00007013, 0x0000707F⟩,
    ⟨.SLLI, 0x00001013, 0xFE00707F⟩, ⟨.SRLI, 0x00005013, 0xFE00707F⟩, ⟨.SRAI, 0x40005013, 0xFE00707F⟩ ]

def opcodeRowsMemory : List OpcodeRow :=
  [ ⟨.LB, 0x00000003, 0x0000707F⟩, ⟨.LBU, 0x00004003, 0x0000707F⟩, ⟨.LW, 0x00002003, 0x0000707F⟩,
    ⟨.SB, 0x00000023, 0x0000707F⟩, ⟨.SW, 0x00002023, 0x0000707F⟩ ]

def opcodeRowsControl : List OpcodeRow :=
  [ ⟨.BEQ, 0x00000063, 0x0000707F⟩, ⟨.BNE, 0x00001063, 0x0000707F⟩, ⟨.BLT, 0x00004063, 0x0000707F⟩,
    ⟨.BGE, 0x00005063, 0x0000707F⟩, ⟨.BLTU, 0x00006063, 0x0000707F⟩, ⟨.BGEU, 0x00007063, 0x0000707F⟩,
    ⟨.JAL, 0x0000006F, 0x0000007F⟩, ⟨.JALR, 0x00000067, 0x0000707F⟩, ⟨.BUBBLE, 0x00000000, 0xFFFFFFFF⟩ ]

/-- The 33 rows of the opcode table. -/
def opcodeTable : List OpcodeRow := opcodeRowsOp ++ opcodeRowsOpImm ++ opcodeRowsMemory ++ opcodeRowsControl

/-- `(w & r.mask) == r.match` (R96). -/
def OpcodeRow.accepts (r : OpcodeRow) (w : Word) : Bool := w &&& r.mask == r.pattern

/-- Two rows that no word matches together: some bit fixed by both has different values (R102). -/
def OpcodeRow.disjoint (r q : OpcodeRow) : Bool := r.mask &&& q.mask &&& (r.pattern ^^^ q.pattern) != 0

end Sys2Proof
end

