-- ==== Sys2Proof/Machine/State.lean ====
section
/-! DEFINITION. The Engine's state (10_state.md R20 to R37), plain data, and the state after reset (R37; 70_reset_and_hazards.md R200). -/

namespace Sys2Proof.Machine

/-- The memory image (20_memory.md R40): the bytes that are not 0, by strictly rising address (log 4; `Memory.wf`).
An address that is not listed reads as 0. -/
abbrev Memory := List Host.Cell

/-- Fetch/Decode latch (R28). -/
structure FetchDecodeLatch where
  pc              : Word
  instructionWord : Word
  nextPc          : Word
deriving DecidableEq, Repr

/-- Decode/Execute latch (R29). -/
structure DecodeExecuteLatch where
  instructionWord : Word
  operandA        : Word
  operandB        : Word
  immediate       : Word
  nextPc          : Word
  control         : ControlFields
deriving DecidableEq, Repr

/-- Execute/Memory latch (R30). -/
structure ExecuteMemoryLatch where
  instructionWord : Word
  aluResult       : Word
  storeValue      : Word
  branchTaken     : Bool
  control         : ControlFields
deriving DecidableEq, Repr

/-- Memory/Writeback latch (R31). -/
structure MemoryWritebackLatch where
  instructionWord : Word
  aluResult       : Word
  loadedValue     : Word
  control         : ControlFields
deriving DecidableEq, Repr

/-- The bubble of each latch (R33): every numeric field 0, the control record BUBBLE_CTRL. -/
def FetchDecodeLatch.bubble : FetchDecodeLatch := { pc := 0, instructionWord := 0, nextPc := 0 }

def DecodeExecuteLatch.bubble : DecodeExecuteLatch :=
  { instructionWord := 0, operandA := 0, operandB := 0, immediate := 0, nextPc := 0, control := ControlFields.bubble }

def ExecuteMemoryLatch.bubble : ExecuteMemoryLatch :=
  { instructionWord := 0, aluResult := 0, storeValue := 0, branchTaken := false, control := ControlFields.bubble }

def MemoryWritebackLatch.bubble : MemoryWritebackLatch :=
  { instructionWord := 0, aluResult := 0, loadedValue := 0, control := ControlFields.bubble }

/-- The Engine's state (R20). -/
structure State where
  /-- Program counter: the address the next Fetch reads (R25). -/
  pc          : Word
  /-- The storage of the 32 registers (R21); entry 0 is never seen, see `State.reg` (R22). -/
  x           : Vector Word 32
  /-- Memory image (20_memory.md R40). -/
  mem         : Memory
  fd          : FetchDecodeLatch
  de          : DecodeExecuteLatch
  em          : ExecuteMemoryLatch
  mw          : MemoryWritebackLatch
  /-- Steps taken since construction (R35). -/
  cycles      : Nat
  /-- Decode has met an unrecognised word (R36). -/
  illegalSeen : Bool
deriving DecidableEq, Repr

/-- Why the machine stops. `step` never raises one (60_exceptions.md R180, R182, 40_pipeline_engine.md R122): they are the host faults of
60_exceptions.md R182, raised by the host operations of Machine/HostOps.lean alone. Each is SAFE: it ends the run and changes no state. -/
inductive Fault
  /-- Raised by getRegister and setRegister on an index outside 0..31 (R124). Safe. -/
  | hostRegisterIndex
  /-- Raised by setRegister on a value that is no i32, which the typed interface cannot pass (log 9). Safe. -/
  | hostRegisterValue
  /-- Raised by getMemoryByte and setMemoryByte on an address that is no u32, which the typed interface cannot pass
  (93_implementation_defined.md U2; log 9). Safe. -/
  | hostAddress
  /-- Raised by setMemoryByte on a value outside 0..255 (R124). Safe. -/
  | hostByteValue
deriving DecidableEq, Repr

/-- An instruction without a meaning. No arm of exec answers it any more: every row of the opcode table has its meaning. -/
inductive Refusal
  /-- Raised by an arm of exec whose instruction is not modelled; none is. Safe. -/
  | notModelled (mnemonic : String)
deriving DecidableEq, Repr

/-- The machine right after reset, which is construction (70_reset_and_hazards.md R200), from an empty word map and the parameters
`Params.default`: pc at `IMEM_BASE`, every register 0, memory 0 everywhere, four bubbles, `cycles` 0, `illegalSeen` false (R37; log 1 to log 3). -/
def State.reset : State :=
  { pc := Params.default.imemBase, x := Params.default.regInit, mem := [],
    fd := FetchDecodeLatch.bubble, de := DecodeExecuteLatch.bubble, em := ExecuteMemoryLatch.bubble, mw := MemoryWritebackLatch.bubble,
    cycles := 0, illegalSeen := false }

end Sys2Proof.Machine
end

