-- ==== Sys2Proof/Machine/Memory.lean ====
section
/-! DEFINITION. The memory image: its canonical form, reading and writing one byte, and the accesses of 20_memory.md R42 built from them. -/

namespace Sys2Proof.Machine

/-- Every listed address is at least `lo`, below 2^32 and strictly rising, and no listed byte is 0. -/
def Memory.wfFrom (lo : Nat) : Memory → Bool
  | [] => true
  | (a, b) :: rest => decide (lo ≤ a) && decide (a < 2 ^ 32) && (b != 0) && Memory.wfFrom (a + 1) rest

/-- The canonical form: equal memories are equal lists. -/
def Memory.wf (m : Memory) : Bool := Memory.wfFrom 0 m

/-- What an address that is not listed reads as: "a byte nothing has written holds 0" (R40). -/
def unlistedByte : Byte := 0

/-- The byte listed at an address. -/
def Memory.lookup (m : Memory) (a : Nat) : Byte :=
  match m with
  | [] => unlistedByte
  | (k, b) :: rest => if k = a then b else Memory.lookup rest a

/-- Put a byte at an address and keep the canonical form: the byte an unlisted address reads as is not listed. -/
def Memory.update (m : Memory) (a : Nat) (b : Byte) : Memory :=
  match m with
  | [] => if b = unlistedByte then [] else [(a, b)]
  | (k, c) :: rest =>
    if a < k then (if b = unlistedByte then (k, c) :: rest else (a, b) :: (k, c) :: rest)
    else if a = k then (if b = unlistedByte then rest else (a, b) :: rest)
    else (k, c) :: Memory.update rest a b

/-- `mem[a]`; every 32-bit address names a byte (R40, R49). -/
def Memory.readByte (m : Memory) (a : Word) : Byte := Memory.lookup m a.toNat

/-- `mem[a] <- b`. -/
def Memory.writeByte (m : Memory) (a : Word) (b : Byte) : Memory := Memory.update m a.toNat b

/-- `MemRead(a, 4)`, little-endian, the address of each byte modulo 2^32 (R41, R42). -/
def Memory.readWord (m : Memory) (a : Word) : Word :=
  wordOfBytes (m.readByte a) (m.readByte (a + 1)) (m.readByte (a + 2)) (m.readByte (a + 3))

/-- `MemWrite(a, 1, v)`: the low 8 bits of `v` (R42). -/
def Memory.storeByte (m : Memory) (a v : Word) : Memory := m.writeByte a (v.extractLsb' 0 8)

/-- `MemWrite(a, 4, v)`: four bytes, in the order of R42. -/
def Memory.storeWord (m : Memory) (a v : Word) : Memory :=
  (((m.writeByte a (v.extractLsb' 0 8)).writeByte (a + 1) (v.extractLsb' 8 8)).writeByte (a + 2)
    (v.extractLsb' 16 8)).writeByte (a + 3) (v.extractLsb' 24 8)

end Sys2Proof.Machine
end

