-- ==== Sys2Proof/Machine/Operands.lean ====
section
/-! DEFINITION. The operands of an instruction in the Execute stage (40_pipeline_engine.md R114). The two register operands were read in
Decode (R115, R117) and stand in the DE latch; so does the immediate, which is also the instruction's own operand. -/

namespace Sys2Proof.Machine

/-- `A`: the register that word bits [19:15] name, read at Decode. -/
def State.operandA (s : State) : Word := s.de.operandA

/-- `B`: the register that word bits [24:20] name, read at Decode. -/
def State.operandB (s : State) : Word := s.de.operandB

/-- `npc`: the sequential successor of the instruction in Execute, the link value of a jump. -/
def State.npc (s : State) : Word := s.de.nextPc

/-- `pcI`: the address of the instruction in Execute itself (R114). -/
def State.pcI (s : State) : Word := s.de.nextPc - 4

/-- The instruction in the Execute stage: the one whose opKind the DE latch carries (R114 "case DE.control.opKind of"), with the destination
and the immediate of the latch and the register numbers of its word (log 17). -/
def DecodeExecuteLatch.instr (l : DecodeExecuteLatch) : Instr :=
  Instr.build l.control.opKind l.control.destReg (rs1Of l.instructionWord) (rs2Of l.instructionWord) l.immediate

/-- The low 5 bits of a register operand, the shift amount of `sll`, `srl`, `sra` (41_alu_register.md R143, R147, R148). -/
def shiftAmount (b : Word) : Nat := (b.extractLsb' 0 5).toNat

end Sys2Proof.Machine
end

