-- ==== Sys2Proof/Machine/Ops.lean ====
section
/-! DEFINITION. The shared operations: register access with the zero wire, the five stages, and the clock cycle that puts them together
(40_pipeline_engine.md R111 to R118). The CORE takes no exception and returns from none (60_exceptions.md R180, R186, R187), so there is no
operation for either. -/

namespace Sys2Proof.Machine

-- Registers (10_state.md R22).

/-- `x[i]`: register 0 reads as 0 whatever the storage holds. -/
def readReg (x : Vector Word 32) (i : RegIdx) : Word := if i = 0 then 0 else x.get i.toFin

/-- `x[i] <- v`: a write to register 0 is discarded. -/
def writeReg (x : Vector Word 32) (i : RegIdx) (v : Word) : Vector Word 32 := if i = 0 then x else x.set i.toFin v i.toFin.isLt

/-- The register as the machine sees it. -/
def State.reg (s : State) (i : RegIdx) : Word := readReg s.x i

-- Writeback (R112).

/-- The register write of this cycle, if any: the destination is not register 0, the value is the loaded one exactly for a load. -/
def MemoryWritebackLatch.write (l : MemoryWritebackLatch) : Option (RegIdx × Word) :=
  if l.control.regWriteEnable && l.control.destReg != 0 then
    some (l.control.destReg, if l.control.memReadEnable then l.loadedValue else l.aluResult)
  else none

/-- The register file after the write, if any. -/
def commitWrite (x : Vector Word 32) (w : Option (RegIdx × Word)) : Vector Word 32 :=
  match w with
  | some (r, v) => writeReg x r v
  | none => x

-- Memory (R113).

/-- The store of an opKind: a word for `SW`, a byte for `SB`. No other opKind is decoded with `memWriteEnable` (30_encoding.md R100); on a latch that
no step produces, nothing is stored (log 8). -/
def storeOf (k : OpKind) (m : Memory) (a v : Word) : Memory :=
  match k with
  | .SW => m.storeWord a v
  | .SB => m.storeByte a v
  | _ => m

/-- The extended value loaded by an opKind (43_load_store.md R162 to R164). No other opKind is decoded with `memReadEnable`; on a latch that no step
produces, the value is 0 (log 8). -/
def loadOf (k : OpKind) (m : Memory) (a : Word) : Word :=
  match k with
  | .LW => m.readWord a
  | .LB => (m.readByte a).signExtend 32
  | .LBU => (m.readByte a).setWidth 32
  | _ => 0

/-- The memory image after the Memory stage. -/
def ExecuteMemoryLatch.memoryAfter (l : ExecuteMemoryLatch) (m : Memory) : Memory :=
  if l.control.memWriteEnable then storeOf l.control.opKind m l.aluResult l.storeValue else m

/-- `MW'`; `m` is the memory image after the Memory stage's store. -/
def ExecuteMemoryLatch.toMW (l : ExecuteMemoryLatch) (m : Memory) : MemoryWritebackLatch :=
  { instructionWord := l.instructionWord, aluResult := l.aluResult,
    loadedValue := if l.control.memReadEnable then loadOf l.control.opKind m l.aluResult else 0,
    control := l.control }

-- Execute (R114).

/-- What an instruction's Execute body answers: `(aluResult, branchTaken, redirect)`. The redirect is a value of this cycle only. -/
structure ExecResult where
  aluResult   : Word
  branchTaken : Bool
  redirect    : Option Word
deriving DecidableEq, Repr

/-- The body of an instruction that transfers no control. -/
def ExecResult.value (v : Word) : ExecResult := { aluResult := v, branchTaken := false, redirect := none }

/-- The body of a branch (44_control_transfer.md R171): `aluResult` is the target, taken or not. -/
def ExecResult.branch (target : Word) (taken : Bool) : ExecResult :=
  { aluResult := target, branchTaken := taken, redirect := if taken then some target else none }

/-- The body of a jump (R178, R179): the link value, always taken. -/
def ExecResult.jump (link target : Word) : ExecResult := { aluResult := link, branchTaken := true, redirect := some target }

/-- `EM'`: `storeValue` is `DE.operandB` for every instruction. -/
def DecodeExecuteLatch.toEM (l : DecodeExecuteLatch) (r : ExecResult) : ExecuteMemoryLatch :=
  { instructionWord := l.instructionWord, aluResult := r.aluResult, storeValue := l.operandB, branchTaken := r.branchTaken,
    control := l.control }

-- Decode (R115, R117).

/-- `DE'`; `x` is the register file before this cycle's Writeback. -/
def FetchDecodeLatch.toDE (l : FetchDecodeLatch) (x : Vector Word 32) : DecodeExecuteLatch :=
  { instructionWord := l.instructionWord,
    operandA := readReg x (decode l.instructionWord).rs1,
    operandB := readReg x (decode l.instructionWord).rs2,
    immediate := (decode l.instructionWord).immediate,
    nextPc := l.nextPc,
    control := (decode l.instructionWord).control }

-- Fetch (R116).

/-- `FD'`; `m` is the memory image after this cycle's store (20_memory.md R51). -/
def fetch (m : Memory) (pc : Word) : FetchDecodeLatch := { pc := pc, instructionWord := m.readWord pc, nextPc := pc + 4 }

/-- The program counter of the next cycle: the redirect of this cycle's Execute, else `pc + 4`. -/
def nextPcOf (pc : Word) (redirect : Option Word) : Word :=
  match redirect with
  | some t => t
  | none => pc + 4

-- The clock cycle.

/-- The memory image after this cycle's Memory stage, which this cycle's Fetch reads. -/
def State.memNext (s : State) : Memory := s.em.memoryAfter s.mem

/-- The register file after this cycle's Writeback. -/
def State.xNext (s : State) : Vector Word 32 := commitWrite s.x s.mw.write

/-- One clock cycle (R111) in which the Execute stage's body answers `r`. -/
def State.cycle (s : State) (r : ExecResult) : State :=
  { pc := nextPcOf s.pc r.redirect,
    x := s.xNext,
    mem := s.memNext,
    fd := fetch s.memNext s.pc,
    de := s.fd.toDE s.x,
    em := s.de.toEM r,
    mw := s.em.toMW s.memNext,
    cycles := s.cycles + 1,
    illegalSeen := s.illegalSeen || (decode s.fd.instructionWord).unrecognised }

/-- A meaning's answer: the clock cycle always completes (R122). -/
def State.finish (s : State) (r : ExecResult) : Host.Outcome State Fault Refusal := .next (s.cycle r)

end Sys2Proof.Machine
end

