-- ==== Sys2Proof/Machine/AluImmediate.lean ====
section
/-! DEFINITION. The clock cycle in which each register-immediate ALU instruction is in Execute (42_alu_immediate.md R151 to R160; log 5).
`A` was read from rs1 in Decode; the immediate is the sign-extended one of R71, or the shift amount of R75. -/

namespace Sys2Proof.Machine

/-- R152: `A + imm` modulo 2^32. -/
def execAddi (_rd _rs1 : RegIdx) (imm : Word) (s : State) : Host.Outcome State Fault Refusal :=
  s.finish (.value (s.operandA + imm))

/-- R153: `bool(A <s imm)`. -/
def execSlti (_rd _rs1 : RegIdx) (imm : Word) (s : State) : Host.Outcome State Fault Refusal :=
  s.finish (.value (boolWord (lessSigned s.operandA imm)))

/-- R154: `bool(A <u imm)`, the sign-extended immediate read as unsigned. -/
def execSltiu (_rd _rs1 : RegIdx) (imm : Word) (s : State) : Host.Outcome State Fault Refusal :=
  s.finish (.value (boolWord (lessUnsigned s.operandA imm)))

/-- R155: `A ^ imm`. -/
def execXori (_rd _rs1 : RegIdx) (imm : Word) (s : State) : Host.Outcome State Fault Refusal :=
  s.finish (.value (s.operandA ^^^ imm))

/-- R156: `A | imm`. -/
def execOri (_rd _rs1 : RegIdx) (imm : Word) (s : State) : Host.Outcome State Fault Refusal :=
  s.finish (.value (s.operandA ||| imm))

/-- R157: `A & imm`. -/
def execAndi (_rd _rs1 : RegIdx) (imm : Word) (s : State) : Host.Outcome State Fault Refusal :=
  s.finish (.value (s.operandA &&& imm))

/-- R158: `A << shamt` modulo 2^32. -/
def execSlli (_rd _rs1 : RegIdx) (shamt : Word) (s : State) : Host.Outcome State Fault Refusal :=
  s.finish (.value (s.operandA <<< shamt.toNat))

/-- R159: `A >>u shamt`. -/
def execSrli (_rd _rs1 : RegIdx) (shamt : Word) (s : State) : Host.Outcome State Fault Refusal :=
  s.finish (.value (s.operandA >>> shamt.toNat))

/-- R160: `A >>s shamt`. -/
def execSrai (_rd _rs1 : RegIdx) (shamt : Word) (s : State) : Host.Outcome State Fault Refusal :=
  s.finish (.value (s.operandA.sshiftRight shamt.toNat))

end Sys2Proof.Machine
end

