-- ==== Sys2Proof/Machine/AluRegister.lean ====
section
/-! DEFINITION. The clock cycle in which each register-register ALU instruction is in Execute (41_alu_register.md R140 to R150; log 5).
`A` and `B` were read from rs1 and rs2 in Decode and stand in the DE latch (R117); `rd` rides in the latch's control record to Writeback,
where the result is written. No flag exists and nothing is raised. -/

namespace Sys2Proof.Machine

/-- R141: `A + B` modulo 2^32. -/
def execAdd (_rd _rs1 _rs2 : RegIdx) (s : State) : Host.Outcome State Fault Refusal :=
  s.finish (.value (s.operandA + s.operandB))

/-- R142: `A - B` modulo 2^32. -/
def execSub (_rd _rs1 _rs2 : RegIdx) (s : State) : Host.Outcome State Fault Refusal :=
  s.finish (.value (s.operandA - s.operandB))

/-- R143: `A << B[4:0]` modulo 2^32. -/
def execSll (_rd _rs1 _rs2 : RegIdx) (s : State) : Host.Outcome State Fault Refusal :=
  s.finish (.value (s.operandA <<< shiftAmount s.operandB))

/-- R144: `bool(A <s B)`. -/
def execSlt (_rd _rs1 _rs2 : RegIdx) (s : State) : Host.Outcome State Fault Refusal :=
  s.finish (.value (boolWord (lessSigned s.operandA s.operandB)))

/-- R145: `bool(A <u B)`. -/
def execSltu (_rd _rs1 _rs2 : RegIdx) (s : State) : Host.Outcome State Fault Refusal :=
  s.finish (.value (boolWord (lessUnsigned s.operandA s.operandB)))

/-- R146: `A ^ B`. -/
def execXor (_rd _rs1 _rs2 : RegIdx) (s : State) : Host.Outcome State Fault Refusal :=
  s.finish (.value (s.operandA ^^^ s.operandB))

/-- R147: `A >>u B[4:0]`. -/
def execSrl (_rd _rs1 _rs2 : RegIdx) (s : State) : Host.Outcome State Fault Refusal :=
  s.finish (.value (s.operandA >>> shiftAmount s.operandB))

/-- R148: `A >>s B[4:0]`. -/
def execSra (_rd _rs1 _rs2 : RegIdx) (s : State) : Host.Outcome State Fault Refusal :=
  s.finish (.value (s.operandA.sshiftRight (shiftAmount s.operandB)))

/-- R149: `A | B`. -/
def execOr (_rd _rs1 _rs2 : RegIdx) (s : State) : Host.Outcome State Fault Refusal :=
  s.finish (.value (s.operandA ||| s.operandB))

/-- R150: `A & B`. -/
def execAnd (_rd _rs1 _rs2 : RegIdx) (s : State) : Host.Outcome State Fault Refusal :=
  s.finish (.value (s.operandA &&& s.operandB))

end Sys2Proof.Machine
end

