-- ==== Sys2Proof/Machine/ControlTransfer.lean ====
section
/-! DEFINITION. The clock cycle in which each branch and jump is in Execute (44_control_transfer.md R170 to R179; log 5), and the bubble
(30_encoding.md R97). A redirect sets the program counter of the next cycle; the two instructions already fetched go on (R119). -/

namespace Sys2Proof.Machine

/-- R172: taken if `A == B`. -/
def execBeq (_rs1 _rs2 : RegIdx) (offset : Word) (s : State) : Host.Outcome State Fault Refusal :=
  s.finish (.branch (s.pcI + offset) (s.operandA == s.operandB))

/-- R173: taken if `A != B`. -/
def execBne (_rs1 _rs2 : RegIdx) (offset : Word) (s : State) : Host.Outcome State Fault Refusal :=
  s.finish (.branch (s.pcI + offset) (s.operandA != s.operandB))

/-- R174: taken if `A <s B`. -/
def execBlt (_rs1 _rs2 : RegIdx) (offset : Word) (s : State) : Host.Outcome State Fault Refusal :=
  s.finish (.branch (s.pcI + offset) (lessSigned s.operandA s.operandB))

/-- R175: taken if not `A <s B`. -/
def execBge (_rs1 _rs2 : RegIdx) (offset : Word) (s : State) : Host.Outcome State Fault Refusal :=
  s.finish (.branch (s.pcI + offset) (!lessSigned s.operandA s.operandB))

/-- R176: taken if `A <u B`. -/
def execBltu (_rs1 _rs2 : RegIdx) (offset : Word) (s : State) : Host.Outcome State Fault Refusal :=
  s.finish (.branch (s.pcI + offset) (lessUnsigned s.operandA s.operandB))

/-- R177: taken if not `A <u B`. -/
def execBgeu (_rs1 _rs2 : RegIdx) (offset : Word) (s : State) : Host.Outcome State Fault Refusal :=
  s.finish (.branch (s.pcI + offset) (!lessUnsigned s.operandA s.operandB))

/-- R178: the link value is `npc`, the target `pcI + imm`. -/
def execJal (_rd : RegIdx) (offset : Word) (s : State) : Host.Outcome State Fault Refusal :=
  s.finish (.jump s.npc (s.pcI + offset))

/-- R179: the link value is `npc`, the target `(A + imm) & 0xFFFFFFFE`. -/
def execJalr (_rd _rs1 : RegIdx) (imm : Word) (s : State) : Host.Outcome State Fault Refusal :=
  s.finish (.jump s.npc ((s.operandA + imm) &&& 0xFFFFFFFE))

/-- R97, R114: a bubble's Execute body is `(0, 0, None)`. -/
def execBubble  (s : State) : Host.Outcome State Fault Refusal :=
  s.finish (.value 0)

end Sys2Proof.Machine
end

