-- ==== Sys2Proof/Machine/LoadStore.lean ====
section
/-! DEFINITION. The clock cycle in which each load and store is in Execute (43_load_store.md R161 to R166; log 5): Execute computes the
effective address `ea = A + imm` modulo 2^32 (R161). The access itself is the next cycle's Memory stage, `loadOf` and `storeOf` of Ops.lean, and a
loaded value is written by the Writeback stage after that. -/

namespace Sys2Proof.Machine

/-- R162: the effective address of a signed byte load. -/
def execLb (_rd _rs1 : RegIdx) (imm : Word) (s : State) : Host.Outcome State Fault Refusal :=
  s.finish (.value (s.operandA + imm))

/-- R163: the effective address of an unsigned byte load. -/
def execLbu (_rd _rs1 : RegIdx) (imm : Word) (s : State) : Host.Outcome State Fault Refusal :=
  s.finish (.value (s.operandA + imm))

/-- R164: the effective address of a word load. -/
def execLw (_rd _rs1 : RegIdx) (imm : Word) (s : State) : Host.Outcome State Fault Refusal :=
  s.finish (.value (s.operandA + imm))

/-- R165: the effective address of a byte store; the value stored is `B`, carried on in `EM.storeValue`. -/
def execSb (_rs2 _rs1 : RegIdx) (imm : Word) (s : State) : Host.Outcome State Fault Refusal :=
  s.finish (.value (s.operandA + imm))

/-- R166: the effective address of a word store; the value stored is `B`, carried on in `EM.storeValue`. -/
def execSw (_rs2 _rs1 : RegIdx) (imm : Word) (s : State) : Host.Outcome State Fault Refusal :=
  s.finish (.value (s.operandA + imm))

end Sys2Proof.Machine
end

