-- ==== Sys2Proof/Machine/FetchWord.lean ====
section
/-! DEFINITION. Placing a word in the Execute stage: what the first two cycles of its life do (70_reset_and_hazards.md R203), done at once. -/

namespace Sys2Proof.Machine

/-- The word `w` stored at `s.pc` and fetched there, decoded with the registers of `s`, and its sequential successor fetched: FD, DE and pc as the
two cycles that take a word from memory to the Execute stage leave them. Registers, EM, MW and `cycles` are untouched (log 6). -/
def placeInExecute (s : State) (w : Word) : State :=
  { s with
    mem := s.mem.storeWord s.pc w,
    de := (fetch (s.mem.storeWord s.pc w) s.pc).toDE s.x,
    fd := fetch (s.mem.storeWord s.pc w) (s.pc + 4),
    pc := s.pc + 8,
    illegalSeen := s.illegalSeen || (decode w).unrecognised }

end Sys2Proof.Machine
end

