-- ==== Sys2Proof/Machine/Step.lean ====
section
/-! DEFINITION. `step()`, one clock cycle (40_pipeline_engine.md R110, R111), and the state whose very next step runs a given word. -/

namespace Sys2Proof.Machine

/-- One clock cycle: the cycle of the instruction that is in the Execute stage (R111, R114). -/
def step (s : State) : Host.Outcome State Fault Refusal := exec s.de.instr s

/-- `s` with the word of `nbits` bits stored at its pc and its Fetch and Decode done, so that the very next step runs it (log 6). -/
def State.withFetchWord (s : State) (nbits w : Nat) : State := placeInExecute s (BitVec.ofNat 32 (w % 2 ^ nbits))

end Sys2Proof.Machine
end

