-- ==== Sys2Proof/Machine/Reset.lean ====
section
/-! DEFINITION. Construction, the only reset of the CORE (70_reset_and_hazards.md R200). -/

namespace Sys2Proof.Machine

/-- The Encoder's output: address and word (00_scope.md R12); the first listed is placed first. -/
abbrev WordMap := List (Word × Word)

/-- "for every (a, b) in DATA_INIT: mem[a] <- b". -/
def placeData (m : Memory) : List (Word × Byte) → Memory
  | [] => m
  | (a, b) :: rest => placeData (m.writeByte a b) rest

/-- "for every (a, w) in words: MemWrite(a, 4, w)". -/
def placeWords (m : Memory) : WordMap → Memory
  | [] => m
  | (a, w) :: rest => placeWords (m.storeWord a w) rest

/-- `construct(words)`: memory 0, then `DATA_INIT`, then the code words over it; registers `REG_INIT` with x0 = 0; four bubbles;
`pc = IMEM_BASE`; `cycles` 0; `illegalSeen` false (R200; 10_state.md R37). -/
def construct (p : Params) (words : WordMap) : State :=
  { pc := p.imemBase, x := p.regInit.set 0 0, mem := placeWords (placeData [] p.dataInit) words,
    fd := FetchDecodeLatch.bubble, de := DecodeExecuteLatch.bubble, em := ExecuteMemoryLatch.bubble, mw := MemoryWritebackLatch.bubble,
    cycles := 0, illegalSeen := false }

end Sys2Proof.Machine
end

