-- ==== Sys2Proof/Machine/Encoder.lean ====
section
/-! DEFINITION. The Encoder (30_encoding.md R60 to R94, R103, R104): from a parsed instruction and the symbol table to a word or an encoding
error, and from a program to a word map or the first error. The word itself is packed by `encode` of Decode.lean. -/

namespace Sys2Proof.Machine

/-- Source text, as its characters. -/
abbrev Text := List Char

/-- The Encoder's input record (R62). -/
structure ParsedInstruction where
  address      : Word
  mnemonic     : Text
  operands     : List Text
  originalText : Text
deriving DecidableEq, Repr

/-- Label to instruction address (R104); the first entry of a label counts (log 11). -/
abbrev SymbolTable := List (Text × Word)

/-- The kinds of R84. -/
inductive ErrorKind
  | E_MNEMONIC | E_ARITY | E_REGISTER | E_IMM_SYNTAX | E_RANGE | E_OFFSET_ALIGN | E_SYMBOL | E_DUP_LABEL
deriving DecidableEq, Repr

/-- The codes of R84. -/
def ErrorKind.code : ErrorKind → Nat
  | .E_MNEMONIC => 1
  | .E_ARITY => 2
  | .E_REGISTER => 3
  | .E_IMM_SYNTAX => 4
  | .E_RANGE => 5
  | .E_OFFSET_ALIGN => 6
  | .E_SYMBOL => 7
  | .E_DUP_LABEL => 8

/-- What a failed check says: the kind and the offending operand, if there is one (R84; log 10). -/
structure CheckFailure where
  kind    : ErrorKind
  operand : Option Text
deriving DecidableEq, Repr

/-- The report of an encoding error (R84; 60_exceptions.md R181). -/
structure EncodingError where
  kind         : ErrorKind
  operand      : Option Text
  originalText : Text
deriving DecidableEq, Repr

-- Text (R62, R81, R82).

/-- A space or a tab. -/
def isBlank (c : Char) : Bool := c == ' ' || c == '\t'

/-- Leading and trailing spaces and tabs removed (R62). -/
def trimText (t : Text) : Text := ((t.dropWhile isBlank).reverse.dropWhile isBlank).reverse

/-- The value of a decimal digit. -/
def decimalDigit (c : Char) : Option Nat :=
  if 48 ≤ c.toNat ∧ c.toNat ≤ 57 then some (c.toNat - 48) else none

/-- The value of a hexadecimal digit, of either case. -/
def hexDigit (c : Char) : Option Nat :=
  if 97 ≤ c.toNat ∧ c.toNat ≤ 102 then some (c.toNat - 87)
  else if 65 ≤ c.toNat ∧ c.toNat ≤ 70 then some (c.toNat - 55)
  else decimalDigit c

/-- The number that digits denote, `acc` being the number before them; `none` if one of them is no digit. -/
def digitsValue (base : Nat) (digit : Char → Option Nat) (acc : Nat) : Text → Option Nat
  | [] => some acc
  | c :: rest => match digit c with
    | some d => digitsValue base digit (acc * base + d) rest
    | none => none

/-- One or more decimal digits, or `0x`/`0X` and one or more hexadecimal digits (R82). -/
def parseMagnitude (t : Text) : Option Nat :=
  match t with
  | [] => none
  | '0' :: 'x' :: d :: rest => digitsValue 16 hexDigit 0 (d :: rest)
  | '0' :: 'X' :: d :: rest => digitsValue 16 hexDigit 0 (d :: rest)
  | c :: rest => digitsValue 10 decimalDigit 0 (c :: rest)

/-- An immediate literal: the sign applies to the whole magnitude (R82). -/
def parseLiteral (t : Text) : Option Int :=
  match t with
  | '+' :: rest => (parseMagnitude rest).map fun n : Nat => (n : Int)
  | '-' :: rest => (parseMagnitude rest).map fun n : Nat => -(n : Int)
  | rest => (parseMagnitude rest).map fun n : Nat => (n : Int)

/-- The ABI names of 10_state.md R23. -/
def abiNames : List (Text × RegIdx) :=
  [ ("zero".toList, 0), ("ra".toList, 1), ("sp".toList, 2), ("gp".toList, 3), ("tp".toList, 4),
    ("t0".toList, 5), ("t1".toList, 6), ("t2".toList, 7), ("s0".toList, 8), ("fp".toList, 8), ("s1".toList, 9) ] ++
  [ ("a0".toList, 10), ("a1".toList, 11), ("a2".toList, 12), ("a3".toList, 13), ("a4".toList, 14), ("a5".toList, 15),
    ("a6".toList, 16), ("a7".toList, 17) ] ++
  [ ("s2".toList, 18), ("s3".toList, 19), ("s4".toList, 20), ("s5".toList, 21), ("s6".toList, 22), ("s7".toList, 23),
    ("s8".toList, 24), ("s9".toList, 25), ("s10".toList, 26), ("s11".toList, 27) ] ++
  [ ("t3".toList, 28), ("t4".toList, 29), ("t5".toList, 30), ("t6".toList, 31) ]

/-- The entry of a text in a table, the first one counting. -/
def lookupText {α : Type} (t : Text) : List (Text × α) → Option α
  | [] => none
  | (k, v) :: rest => if k = t then some v else lookupText t rest

/-- A register operand: `x` and a decimal number 0..31 without leading zeros, or an ABI name, all lower case (R81). -/
def parseRegister (t : Text) : Option RegIdx :=
  match t with
  | ['x'] => none
  | ['x', '0'] => some 0
  | 'x' :: '0' :: _ => none
  | 'x' :: digits => match digitsValue 10 decimalDigit 0 digits with
    | some n => if n ≤ 31 then some (BitVec.ofNat 5 n) else none
    | none => none
  | name => lookupText name abiNames

-- Operands, each with its checks in the order of R85.

/-- A register operand, or E_REGISTER. -/
def registerOperand (t : Text) : Except CheckFailure RegIdx :=
  match parseRegister t with
  | some r => .ok r
  | none => .error ⟨.E_REGISTER, some t⟩

/-- An immediate operand in `[lo, hi]`, or E_IMM_SYNTAX, or E_RANGE (R82, R83). -/
def immediateOperand (lo hi : Int) (t : Text) : Except CheckFailure Word :=
  match parseLiteral t with
  | none => .error ⟨.E_IMM_SYNTAX, some t⟩
  | some v => if lo ≤ v ∧ v ≤ hi then .ok (BitVec.ofInt 32 v) else .error ⟨.E_RANGE, some t⟩

/-- The offset that a target operand gives: a label is looked up first, and its address taken relative to the instruction's (R80). -/
def targetOffset (address : Word) (sym : SymbolTable) (t : Text) : Option Int :=
  match lookupText t sym with
  | some a => some ((a.toNat : Int) - (address.toNat : Int))
  | none => parseLiteral t

/-- A target operand, or E_SYMBOL, E_OFFSET_ALIGN, E_RANGE (R80, R83). -/
def targetOperand (lo hi : Int) (address : Word) (sym : SymbolTable) (t : Text) : Except CheckFailure Word :=
  match targetOffset address sym t with
  | none => .error ⟨.E_SYMBOL, some t⟩
  | some v =>
    if v % 2 ≠ 0 then .error ⟨.E_OFFSET_ALIGN, some t⟩
    else if lo ≤ v ∧ v ≤ hi then .ok (BitVec.ofInt 32 v)
    else .error ⟨.E_RANGE, some t⟩

-- Mnemonics (R86) and pseudo-instructions (R87 to R94).

/-- The operand formats of R63. -/
inductive Format
  | registerRegister | registerImmediate | shiftImmediate | load | store | branch | jump
deriving DecidableEq, Repr

/-- "Each mnemonic maps to exactly one instruction format" (R86); the bubble has no mnemonic. -/
def formatOf (k : OpKind) : Option Format :=
  match k with
  | .ADD | .SUB | .SLL | .SLT | .SLTU | .XOR | .SRL | .SRA | .OR | .AND => some .registerRegister
  | .ADDI | .SLTI | .SLTIU | .XORI | .ORI | .ANDI | .JALR => some .registerImmediate
  | .SLLI | .SRLI | .SRAI => some .shiftImmediate
  | .LB | .LBU | .LW => some .load
  | .SB | .SW => some .store
  | .BEQ | .BNE | .BLT | .BGE | .BLTU | .BGEU => some .branch
  | .JAL => some .jump
  | .BUBBLE => none

/-- A mnemonic of R86: a core instruction or a pseudo-instruction. -/
inductive Mnemonic
  | core (k : OpKind)
  | li | mv | nop | j | ret | beqz | bnez
deriving DecidableEq, Repr

/-- The admitted spellings, exactly these, lower case (R86). -/
def mnemonicTable : List (Text × Mnemonic) :=
  [ ("add".toList, .core .ADD), ("sub".toList, .core .SUB), ("sll".toList, .core .SLL), ("slt".toList, .core .SLT),
    ("sltu".toList, .core .SLTU), ("xor".toList, .core .XOR), ("srl".toList, .core .SRL), ("sra".toList, .core .SRA),
    ("or".toList, .core .OR), ("and".toList, .core .AND) ] ++
  [ ("addi".toList, .core .ADDI), ("slti".toList, .core .SLTI), ("sltiu".toList, .core .SLTIU), ("xori".toList, .core .XORI),
    ("ori".toList, .core .ORI), ("andi".toList, .core .ANDI), ("slli".toList, .core .SLLI), ("srli".toList, .core .SRLI),
    ("srai".toList, .core .SRAI) ] ++
  [ ("lb".toList, .core .LB), ("lbu".toList, .core .LBU), ("lw".toList, .core .LW), ("sb".toList, .core .SB),
    ("sw".toList, .core .SW) ] ++
  [ ("beq".toList, .core .BEQ), ("bne".toList, .core .BNE), ("blt".toList, .core .BLT), ("bge".toList, .core .BGE),
    ("bltu".toList, .core .BLTU), ("bgeu".toList, .core .BGEU), ("jal".toList, .core .JAL), ("jalr".toList, .core .JALR) ] ++
  [ ("li".toList, .li), ("mv".toList, .mv), ("nop".toList, .nop), ("j".toList, .j), ("ret".toList, .ret), ("beqz".toList, .beqz),
    ("bnez".toList, .bnez) ]

/-- The operand counts of R86. -/
def Mnemonic.takes (m : Mnemonic) (n : Nat) : Bool :=
  match m with
  | .core .JAL => n == 1 || n == 2
  | .core _ => n == 3
  | .li => n == 2
  | .mv => n == 2
  | .nop => n == 0
  | .j => n == 1
  | .ret => n == 0
  | .beqz => n == 2
  | .bnez => n == 2

/-- The core instruction and operand list that a mnemonic stands for (R87 to R94); the operand count has been checked. -/
def Mnemonic.expand (m : Mnemonic) (ops : List Text) : OpKind × List Text :=
  match m, ops with
  | .core .JAL, [target] => (.JAL, ["x1".toList, target])
  | .core k, _ => (k, ops)
  | .li, [rd, imm] => (.ADDI, [rd, "x0".toList, imm])
  | .mv, [rd, rs] => (.ADDI, [rd, rs, "0".toList])
  | .nop, _ => (.ADDI, ["x0".toList, "x0".toList, "0".toList])
  | .j, [target] => (.JAL, ["x0".toList, target])
  | .ret, _ => (.JALR, ["x0".toList, "x1".toList, "0".toList])
  | .beqz, [rs, target] => (.BEQ, [rs, "x0".toList, target])
  | .bnez, [rs, target] => (.BNE, [rs, "x0".toList, target])
  | .li, _ => (.ADDI, ops)
  | .mv, _ => (.ADDI, ops)
  | .j, _ => (.JAL, ops)
  | .beqz, _ => (.BEQ, ops)
  | .bnez, _ => (.BNE, ops)

/-- The operands of a core instruction, parsed and checked left to right in the list order of R63 (R85). -/
def parseOperands (k : OpKind) (address : Word) (sym : SymbolTable) (ops : List Text) : Except CheckFailure Instr :=
  match formatOf k, ops with
  | some .registerRegister, [a, b, c] => do
    let rd ← registerOperand a
    let rs1 ← registerOperand b
    let rs2 ← registerOperand c
    return Instr.build k rd rs1 rs2 0
  | some .registerImmediate, [a, b, c] => do
    let rd ← registerOperand a
    let rs1 ← registerOperand b
    let imm ← immediateOperand (-2048) 2047 c
    return Instr.build k rd rs1 0 imm
  | some .shiftImmediate, [a, b, c] => do
    let rd ← registerOperand a
    let rs1 ← registerOperand b
    let shamt ← immediateOperand 0 31 c
    return Instr.build k rd rs1 0 shamt
  | some .load, [a, b, c] => do
    let rd ← registerOperand a
    let rs1 ← registerOperand b
    let imm ← immediateOperand (-2048) 2047 c
    return Instr.build k rd rs1 0 imm
  | some .store, [a, b, c] => do
    let rs2 ← registerOperand a
    let rs1 ← registerOperand b
    let imm ← immediateOperand (-2048) 2047 c
    return Instr.build k 0 rs1 rs2 imm
  | some .branch, [a, b, c] => do
    let rs1 ← registerOperand a
    let rs2 ← registerOperand b
    let offset ← targetOperand (-4096) 4094 address sym c
    return Instr.build k 0 rs1 rs2 offset
  | some .jump, [a, b] => do
    let rd ← registerOperand a
    let offset ← targetOperand (-1048576) 1048574 address sym b
    return Instr.build k rd 0 0 offset
  | _, _ => .error ⟨.E_ARITY, none⟩

/-- The instruction that a parsed instruction stands for, or the first failing check, in the order of R85. -/
def assemble (pi : ParsedInstruction) (sym : SymbolTable) : Except CheckFailure Instr :=
  match lookupText pi.mnemonic mnemonicTable with
  | none => .error ⟨.E_MNEMONIC, none⟩
  | some m =>
    if m.takes pi.operands.length then
      parseOperands (m.expand (pi.operands.map trimText)).1 pi.address sym (m.expand (pi.operands.map trimText)).2
    else .error ⟨.E_ARITY, none⟩

/-- `encode(pi, sym)`: one word, or one error with the offending source line (R60, R84). -/
def encodeParsed (pi : ParsedInstruction) (sym : SymbolTable) : Except EncodingError Word :=
  match assemble pi sym with
  | .ok i => .ok (encode i)
  | .error e => .error { kind := e.kind, operand := e.operand, originalText := pi.originalText }

/-- The Encoder over a program, in sequence order: all words, or the first error and no word (R61). -/
def encodeProgram (sym : SymbolTable) : List ParsedInstruction → Except EncodingError WordMap
  | [] => .ok []
  | pi :: rest => match encodeParsed pi sym with
    | .error e => .error e
    | .ok w => match encodeProgram sym rest with
      | .error e => .error e
      | .ok words => .ok ((pi.address, w) :: words)

/-- The symbol table of a list of labels: E_DUP_LABEL for a label defined twice (R104; log 12).
DESIGN CHOICE (log 12): the report carries the label and no source line. R84 has every error carry the instruction's `originalText`; a label need not
stand on an instruction, and which line its report carries the spec leaves open. -/
def buildSymbols : List (Text × Word) → Except CheckFailure SymbolTable
  | [] => .ok []
  | (label, a) :: rest =>
    if rest.any (fun e => e.1 == label) then .error ⟨.E_DUP_LABEL, some label⟩
    else match buildSymbols rest with
      | .error e => .error e
      | .ok sym => .ok ((label, a) :: sym)

/-- The Engine of a program: constructed from its words if the whole program encodes, else there is no Engine (R61; 60_exceptions.md R181). -/
def boot (p : Params) (sym : SymbolTable) (program : List ParsedInstruction) : Except EncodingError State :=
  match encodeProgram sym program with
  | .ok words => .ok (construct p words)
  | .error e => .error e

end Sys2Proof.Machine
end

