-- ==== Sys2Proof/Machine/HostOps.lean ====
section
/-! DEFINITION. The Engine's boundary operations, which the host calls between steps (40_pipeline_engine.md R124). Numbers come in as
integers; one outside the operation's range is a host fault, which changes no state (60_exceptions.md R182; log 9). -/

namespace Sys2Proof.Machine

/-- 0..31 (R124). -/
def isRegisterIndex (i : Int) : Bool := decide (0 ≤ i ∧ i ≤ 31)

/-- An i32. -/
def isI32 (v : Int) : Bool := decide (-2147483648 ≤ v ∧ v ≤ 2147483647)

/-- A u32. -/
def isU32 (a : Int) : Bool := decide (0 ≤ a ∧ a ≤ 4294967295)

/-- 0..255. -/
def isByteValue (v : Int) : Bool := decide (0 ≤ v ∧ v ≤ 255)

/-- `getProgramCounter() -> u32`. -/
def State.getProgramCounter (s : State) : Word := s.pc

/-- `getRegister(index) -> i32`: `signed(x[index])`, 0 for index 0. -/
def State.getRegister (s : State) (index : Int) : Except Fault Int :=
  if isRegisterIndex index then .ok (s.reg (BitVec.ofInt 5 index)).toInt else .error .hostRegisterIndex

/-- `setRegister(index, value)`: the two's-complement pattern of the value; index 0 changes nothing (10_state.md R21, R22). -/
def State.setRegister (s : State) (index value : Int) : Host.Outcome State Fault Refusal :=
  if !isRegisterIndex index then .fault .hostRegisterIndex
  else if !isI32 value then .fault .hostRegisterValue
  else .next { s with x := writeReg s.x (BitVec.ofInt 5 index) (BitVec.ofInt 32 value) }

/-- `getMemoryByte(address) -> u8` (20_memory.md R56). -/
def State.getMemoryByte (s : State) (address : Int) : Except Fault Byte :=
  if isU32 address then .ok (s.mem.readByte (BitVec.ofInt 32 address)) else .error .hostAddress

/-- `setMemoryByte(address, value)` (20_memory.md R56). -/
def State.setMemoryByte (s : State) (address value : Int) : Host.Outcome State Fault Refusal :=
  if !isU32 address then .fault .hostAddress
  else if !isByteValue value then .fault .hostByteValue
  else .next { s with mem := s.mem.writeByte (BitVec.ofInt 32 address) (BitVec.ofInt 8 value) }

/-- The latch accessors: they return the latch unchanged (10_state.md R34). -/
def State.getFetchDecodeLatch (s : State) : FetchDecodeLatch := s.fd

def State.getDecodeExecuteLatch (s : State) : DecodeExecuteLatch := s.de

def State.getExecuteMemoryLatch (s : State) : ExecuteMemoryLatch := s.em

def State.getMemoryWritebackLatch (s : State) : MemoryWritebackLatch := s.mw

/-- `getCycles()`, a model operation (10_state.md R35). -/
def State.getCycles (s : State) : Nat := s.cycles

/-- One call by the host. `observe` stands for every accessor that takes no argument. -/
inductive HostOp
  | step
  | observe
  | getRegister (index : Int)
  | setRegister (index value : Int)
  | getMemoryByte (address : Int)
  | setMemoryByte (address value : Int)
deriving DecidableEq, Repr

/-- What a call does to the Engine; an accessor leaves the state as it is, unless its argument is a host fault. -/
def HostOp.apply (op : HostOp) (s : State) : Host.Outcome State Fault Refusal :=
  match op with
  | .step => Sys2Proof.Machine.step s
  | .observe => .next s
  | .getRegister i => match s.getRegister i with
    | .ok _ => .next s
    | .error f => .fault f
  | .setRegister i v => s.setRegister i v
  | .getMemoryByte a => match s.getMemoryByte a with
    | .ok _ => .next s
    | .error f => .fault f
  | .setMemoryByte a v => s.setMemoryByte a v

/-- A sequence of host calls; a host fault ends it (R182). -/
def runHost : List HostOp → State → Host.Outcome State Fault Refusal
  | [], s => .next s
  | op :: rest, s => match op.apply s with
    | .next t => runHost rest t
    | .fault f => .fault f
    | .refused r => .refused r

end Sys2Proof.Machine
end

