-- ==== Sys2Proof/Safety.lean ====
section
/-! DEFINITION. What counts as a safe run: the premises of a claim, the end of a run and the outcomes of a run
(40_pipeline_engine.md R125, R126; 60_exceptions.md R195), and the invariants of the states that a run reaches. -/

namespace Sys2Proof.Machine

/-- `n` steps; the first fault or refusal would end it (there is none, R122). -/
def runSteps : Nat → State → Host.Outcome State Fault Refusal
  | 0, s => .next s
  | n + 1, s => match step s with
    | .next t => runSteps n t
    | .fault f => .fault f
    | .refused r => .refused r

/-- The pc is in the program, `[IMEM_BASE, IMEM_BASE + 4N)`, taken modulo 2^32 (R125; log 13). -/
def State.inProgram (s : State) (base : Word) (n : Nat) : Bool := decide ((s.pc - base).toNat < 4 * n)

/-- The four latches hold no instruction (R125 (b)). -/
def State.pipelineEmpty (s : State) : Bool :=
  (decode s.fd.instructionWord).control.opKind == .BUBBLE && s.de.control.opKind == .BUBBLE && s.em.control.opKind == .BUBBLE &&
    s.mw.control.opKind == .BUBBLE

/-- Drained, for a word map of `n` instructions at `base` (R125). -/
def State.drained (s : State) (base : Word) (n : Nat) : Bool := !s.inProgram base n && s.pipelineEmpty

/-- The premise that every claim about a run takes: no unrecognised word has been decoded (R126). -/
def State.claimable (s : State) : Bool := !s.illegalSeen

/-- How a run ends (R195). -/
inductive RunOutcome
  | encodingError (e : EncodingError)
  | hostFault (f : Fault)
  | refused
  | drained (s : State)
  | running (s : State)
deriving DecidableEq, Repr

/-- The outcome of stepping a constructed Engine for at most `fuel` steps: the first drained state, unless `illegalSeen` is set.
DESIGN CHOICE (log 19): the state that stepping starts from counts, so a run may end after zero steps. After construction this matters for the empty
word map alone: it is drained at once here, while the count of 70_reset_and_hazards.md R213 would give 4 steps. -/
def observe (base : Word) (n : Nat) : Nat → State → RunOutcome
  | 0, s => if s.illegalSeen then .refused else if s.drained base n then .drained s else .running s
  | fuel + 1, s =>
    if s.illegalSeen then .refused
    else if s.drained base n then .drained s
    else match step s with
      | .next t => observe base n fuel t
      | .fault f => .hostFault f
      | .refused _ => .refused

/-- A whole run (R126): encode, construct, make the host's calls, then step to the first drained state after them.
DESIGN CHOICE (log 18): R126 speaks of host writes before the first step only. `calls` may hold `step` too; the end is then looked for after the last
call, not from construction, so a drained state that those steps pass through is not reported. -/
def runProgram (p : Params) (sym : SymbolTable) (program : List ParsedInstruction) (calls : List HostOp) (fuel : Nat) : RunOutcome :=
  match boot p sym program with
  | .error e => .encodingError e
  | .ok s => match runHost calls s with
    | .next t => observe p.imemBase program.length fuel t
    | .fault f => .hostFault f
    | .refused _ => .refused

-- Invariants of every state that construction, step and the host operations reach.

/-- Storage of register 0 is 0 (10_state.md R22). -/
def State.zeroWire (s : State) : Bool := s.x[0] == 0

/-- Each latch holds the decode of the word it carries (10_state.md R28 to R34). -/
structure State.LatchesCoherent (s : State) : Prop where
  fdNext    : s.fd = FetchDecodeLatch.bubble ∨ s.fd.nextPc = s.fd.pc + 4
  deControl : s.de.control = (decode s.de.instructionWord).control
  deImm     : s.de.immediate = (decode s.de.instructionWord).immediate
  emControl : s.em.control = (decode s.em.instructionWord).control
  emTaken   : s.em.branchTaken = true → s.em.control.branchKind ≠ .NONE
  mwControl : s.mw.control = (decode s.mw.instructionWord).control
  mwLoaded  : s.mw.control.memReadEnable = false → s.mw.loadedValue = 0

/-- The invariant of the machine. -/
structure State.Inv (s : State) : Prop where
  memory  : s.mem.wf = true
  zero    : s.zeroWire = true
  latches : s.LatchesCoherent


-- What one clock cycle does, whichever instruction is in Execute (40_pipeline_engine.md R111 to R118).

/-- The addresses that this cycle's Memory stage stores to: four bytes for `SW`, one for `SB` (R113). -/
def State.storeFootprint (s : State) : List Word :=
  if s.em.control.memWriteEnable then
    match s.em.control.opKind with
    | .SW => [s.em.aluResult, s.em.aluResult + 1, s.em.aluResult + 2, s.em.aluResult + 3]
    | .SB => [s.em.aluResult]
    | _ => []
  else []

/-- Everything that a cycle from `s` to `t` does apart from the result of the instruction in Execute and the next pc: the older instructions in MW and
EM make their register write and their store, the younger ones in FD and at the pc are decoded and fetched, and nothing else changes. -/
structure CycleRest (s t : State) : Prop where
  /-- Writeback (R112): the only register that changes is the destination of the instruction in MW. -/
  regs : ∀ r, t.reg r =
    if s.mw.control.regWriteEnable = true ∧ s.mw.control.destReg ≠ 0 ∧ r = s.mw.control.destReg then
      (if s.mw.control.memReadEnable then s.mw.loadedValue else s.mw.aluResult)
    else s.reg r
  /-- Memory (R113): no byte changes outside the store of the instruction in EM. -/
  bytes : ∀ a, a ∉ s.storeFootprint → t.mem.readByte a = s.mem.readByte a
  mwWord : t.mw.instructionWord = s.em.instructionWord
  mwResult : t.mw.aluResult = s.em.aluResult
  mwControl : t.mw.control = s.em.control
  emWord : t.em.instructionWord = s.de.instructionWord
  emStore : t.em.storeValue = s.de.operandB
  emControl : t.em.control = s.de.control
  /-- Decode (R115, R117): the registers as they were before this cycle's Writeback. -/
  decoded : t.de =
    { instructionWord := s.fd.instructionWord, operandA := s.reg (rs1Of s.fd.instructionWord),
      operandB := s.reg (rs2Of s.fd.instructionWord), immediate := (decode s.fd.instructionWord).immediate,
      nextPc := s.fd.nextPc, control := (decode s.fd.instructionWord).control }
  /-- Fetch (R116): the word at the pc, after this cycle's store. -/
  fetched : t.fd = { pc := s.pc, instructionWord := t.mem.readWord s.pc, nextPc := s.pc + 4 }
  cycles : t.cycles = s.cycles + 1
  illegal : t.illegalSeen = (s.illegalSeen || (decode s.fd.instructionWord).unrecognised)

/-- `exec i s` answers a next state whose EM latch holds the result `alu` and the mark `taken`, whose pc is `pc`, and of which all the rest is as
`CycleRest` says: in particular the instruction in Execute writes no register and no byte in this cycle. -/
def CompletesWith (i : Instr) (s : State) (alu : Word) (taken : Bool) (pc : Word) : Prop :=
  ∃ t, exec i s = .next t ∧ t.em.aluResult = alu ∧ t.em.branchTaken = taken ∧ t.pc = pc ∧ CycleRest s t

-- The results of 41_alu_register.md and 42_alu_immediate.md in exact arithmetic, narrowed at the end (00_scope.md R9).

namespace Reference

def add (a b : Word) : Word := BitVec.ofNat 32 (a.toNat + b.toNat)
def sub (a b : Word) : Word := BitVec.ofInt 32 (a.toInt - b.toInt)
def slt (a b : Word) : Word := if a.toInt < b.toInt then 1 else 0
def sltu (a b : Word) : Word := if a.toNat < b.toNat then 1 else 0
def xor (a b : Word) : Word := a ^^^ b
def or (a b : Word) : Word := a ||| b
def and (a b : Word) : Word := a &&& b

/-- `a << n` modulo 2^32. -/
def shiftLeft (a : Word) (n : Nat) : Word := BitVec.ofNat 32 (a.toNat * 2 ^ n)

/-- `a >>u n`. -/
def shiftRight (a : Word) (n : Nat) : Word := BitVec.ofNat 32 (a.toNat / 2 ^ n)

/-- `a >>s n`: the quotient rounded towards minus infinity. -/
def shiftRightSigned (a : Word) (n : Nat) : Word := BitVec.ofInt 32 (Int.fdiv a.toInt (2 ^ n))

/-- The register-register instructions and their results from `A` and `B`; the register shifts use `B[4:0]` (R141 to R150). -/
def aluRegister : List ((RegIdx → RegIdx → RegIdx → Instr) × (Word → Word → Word)) :=
  [ (.add, add), (.sub, sub), (.sll, fun a b => shiftLeft a (b.toNat % 32)), (.slt, slt), (.sltu, sltu), (.xor, xor),
    (.srl, fun a b => shiftRight a (b.toNat % 32)), (.sra, fun a b => shiftRightSigned a (b.toNat % 32)), (.or, or), (.and, and) ]

/-- The register-immediate instructions and their results from `A` and the immediate (R152 to R160). -/
def aluImmediate : List ((RegIdx → RegIdx → Word → Instr) × (Word → Word → Word)) :=
  [ (.addi, add), (.slti, slt), (.sltiu, sltu), (.xori, xor), (.ori, or), (.andi, and),
    (.slli, fun a n => shiftLeft a n.toNat), (.srli, fun a n => shiftRight a n.toNat),
    (.srai, fun a n => shiftRightSigned a n.toNat) ]

/-- The loads and what each makes of the memory at the effective address (R162 to R164). -/
def loads : List ((RegIdx → RegIdx → Word → Instr) × (Memory → Word → Word)) :=
  [ (.lb, fun m a => BitVec.ofInt 32 (m.readByte a).toInt), (.lbu, fun m a => BitVec.ofNat 32 (m.readByte a).toNat),
    (.lw, fun m a => BitVec.ofNat 32 ((m.readByte a).toNat + 256 * (m.readByte (a + 1)).toNat + 65536 * (m.readByte (a + 2)).toNat +
      16777216 * (m.readByte (a + 3)).toNat)) ]

/-- The branches and their conditions (R172 to R177). -/
def branches : List ((RegIdx → RegIdx → Word → Instr) × (Word → Word → Bool)) :=
  [ (.beq, fun a b => decide (a = b)), (.bne, fun a b => decide (a ≠ b)),
    (.blt, fun a b => decide (a.toInt < b.toInt)), (.bge, fun a b => decide (b.toInt ≤ a.toInt)),
    (.bltu, fun a b => decide (a.toNat < b.toNat)), (.bgeu, fun a b => decide (b.toNat ≤ a.toNat)) ]

/-- The target of `jalr`: the sum with bit 0 cleared (R179). -/
def jalrTarget (a imm : Word) : Word := BitVec.ofNat 32 ((a.toNat + imm.toNat) % 4294967296 / 2 * 2)

/-- The redirect of the instruction in Execute, by its opKind (R114, R170 to R179). -/
def redirect (l : DecodeExecuteLatch) : Option Word :=
  match l.control.opKind with
  | .BEQ => if l.operandA = l.operandB then some (l.nextPc - 4 + l.immediate) else none
  | .BNE => if l.operandA ≠ l.operandB then some (l.nextPc - 4 + l.immediate) else none
  | .BLT => if l.operandA.toInt < l.operandB.toInt then some (l.nextPc - 4 + l.immediate) else none
  | .BGE => if l.operandB.toInt ≤ l.operandA.toInt then some (l.nextPc - 4 + l.immediate) else none
  | .BLTU => if l.operandA.toNat < l.operandB.toNat then some (l.nextPc - 4 + l.immediate) else none
  | .BGEU => if l.operandB.toNat ≤ l.operandA.toNat then some (l.nextPc - 4 + l.immediate) else none
  | .JAL => some (l.nextPc - 4 + l.immediate)
  | .JALR => some (jalrTarget l.operandA l.immediate)
  | _ => none

/-- The byte that the word map puts at an address: the last listed word that covers it (70_reset_and_hazards.md R200). -/
def wordMapByte (words : WordMap) (a : Word) : Option Byte :=
  match words with
  | [] => none
  | (k, w) :: rest => match wordMapByte rest a with
    | some b => some b
    | none => if (a - k).toNat < 4 then some (w.extractLsb' (8 * (a - k).toNat) 8) else none

/-- The byte that `DATA_INIT` puts at an address: the last listed one. -/
def dataByte (data : List (Word × Byte)) (a : Word) : Option Byte :=
  match data with
  | [] => none
  | (k, b) :: rest => match dataByte rest a with
    | some c => some c
    | none => if a = k then some b else none

-- What the Encoder accepts, as tables of 30_encoding.md and 10_state.md.

/-- The lines of three registers, with the instruction that each spells from rd, rs1, rs2, in line order (R63, R86). -/
def registerLines : List (Text × (RegIdx → RegIdx → RegIdx → Instr)) :=
  [ ("add".toList, .add), ("sub".toList, .sub), ("sll".toList, .sll), ("slt".toList, .slt), ("sltu".toList, .sltu), ("xor".toList, .xor),
    ("srl".toList, .srl), ("sra".toList, .sra), ("or".toList, .or), ("and".toList, .and) ]

/-- A line of two registers and a literal: the instruction that it spells from its operands in line order, and the literal's range. -/
structure ImmediateLine where
  mnemonic : Text
  instr    : RegIdx → RegIdx → Word → Instr
  lo       : Int
  hi       : Int

/-- The lines of two registers and a literal (R63, R83, R86). The registers are rd and rs1, of a store rs2 and rs1. -/
def immediateLines : List ImmediateLine :=
  [ ⟨"addi".toList, .addi, (-2048), 2047⟩, ⟨"slti".toList, .slti, (-2048), 2047⟩, ⟨"sltiu".toList, .sltiu, (-2048), 2047⟩,
    ⟨"xori".toList, .xori, (-2048), 2047⟩, ⟨"ori".toList, .ori, (-2048), 2047⟩, ⟨"andi".toList, .andi, (-2048), 2047⟩ ] ++
  [ ⟨"slli".toList, .slli, 0, 31⟩, ⟨"srli".toList, .srli, 0, 31⟩, ⟨"srai".toList, .srai, 0, 31⟩ ] ++
  [ ⟨"lb".toList, .lb, (-2048), 2047⟩, ⟨"lbu".toList, .lbu, (-2048), 2047⟩, ⟨"lw".toList, .lw, (-2048), 2047⟩,
    ⟨"sb".toList, .sb, (-2048), 2047⟩, ⟨"sw".toList, .sw, (-2048), 2047⟩, ⟨"jalr".toList, .jalr, (-2048), 2047⟩ ]

/-- The lines of two registers and a target (R63, R86). -/
def branchLines : List (Text × (RegIdx → RegIdx → Word → Instr)) :=
  [ ("beq".toList, .beq), ("bne".toList, .bne), ("blt".toList, .blt), ("bge".toList, .bge), ("bltu".toList, .bltu),
    ("bgeu".toList, .bgeu) ]

/-- The admitted mnemonics and the operand counts of each (R86). -/
def mnemonics : List (Text × List Nat) :=
  (registerLines.map fun l => (l.1, [3])) ++ (immediateLines.map fun l => (l.mnemonic, [3])) ++ (branchLines.map fun l => (l.1, [3])) ++
  [ ("jal".toList, [1, 2]), ("li".toList, [2]), ("mv".toList, [2]), ("nop".toList, [0]), ("j".toList, [1]), ("ret".toList, [0]),
    ("beqz".toList, [2]), ("bnez".toList, [2]) ]

/-- The spellings of each register (10_state.md R23, R81). -/
def registerNames : List (RegIdx × List Text) :=
  [ (0, ["x0".toList, "zero".toList]), (1, ["x1".toList, "ra".toList]),
    (2, ["x2".toList, "sp".toList]), (3, ["x3".toList, "gp".toList]),
    (4, ["x4".toList, "tp".toList]), (5, ["x5".toList, "t0".toList]),
    (6, ["x6".toList, "t1".toList]), (7, ["x7".toList, "t2".toList]) ] ++
  [ (8, ["x8".toList, "s0".toList, "fp".toList]), (9, ["x9".toList, "s1".toList]),
    (10, ["x10".toList, "a0".toList]), (11, ["x11".toList, "a1".toList]),
    (12, ["x12".toList, "a2".toList]), (13, ["x13".toList, "a3".toList]),
    (14, ["x14".toList, "a4".toList]), (15, ["x15".toList, "a5".toList]) ] ++
  [ (16, ["x16".toList, "a6".toList]), (17, ["x17".toList, "a7".toList]),
    (18, ["x18".toList, "s2".toList]), (19, ["x19".toList, "s3".toList]),
    (20, ["x20".toList, "s4".toList]), (21, ["x21".toList, "s5".toList]),
    (22, ["x22".toList, "s6".toList]), (23, ["x23".toList, "s7".toList]) ] ++
  [ (24, ["x24".toList, "s8".toList]), (25, ["x25".toList, "s9".toList]),
    (26, ["x26".toList, "s10".toList]), (27, ["x27".toList, "s11".toList]),
    (28, ["x28".toList, "t3".toList]), (29, ["x29".toList, "t4".toList]),
    (30, ["x30".toList, "t5".toList]), (31, ["x31".toList, "t6".toList]) ]

/-- The decimal digits and what each counts. -/
def decimalNumerals : List (Char × Nat) :=
  [ ('0', 0), ('1', 1), ('2', 2), ('3', 3), ('4', 4), ('5', 5), ('6', 6), ('7', 7), ('8', 8), ('9', 9) ]

/-- The hexadecimal digits, of either case, and what each counts. -/
def hexNumerals : List (Char × Nat) :=
  decimalNumerals ++
  [ ('a', 10), ('b', 11), ('c', 12), ('d', 13), ('e', 14), ('f', 15) ] ++
  [ ('A', 10), ('B', 11), ('C', 12), ('D', 13), ('E', 14), ('F', 15) ]

/-- The number of a list of digits, the most significant first. -/
def positional (base : Nat) : List Nat → Nat
  | [] => 0
  | d :: ds => d * base ^ ds.length + positional base ds

/-- `n` is the number that one or more digits of `numerals` denote. -/
def Denotes (numerals : List (Char × Nat)) (base : Nat) (t : Text) (n : Nat) : Prop :=
  ∃ ds : List (Char × Nat), ds ≠ [] ∧ (∀ d ∈ ds, d ∈ numerals) ∧ t = ds.map (fun d => d.1) ∧ n = positional base (ds.map fun d => d.2)

/-- A magnitude of R82: decimal digits, or `0x` or `0X` and hexadecimal digits. -/
def IsMagnitude (t : Text) (n : Nat) : Prop :=
  Denotes decimalNumerals 10 t n ∨ ∃ ds, (t = '0' :: 'x' :: ds ∨ t = '0' :: 'X' :: ds) ∧ Denotes hexNumerals 16 ds n

/-- A literal of R82 and its value: an optional sign, which applies to the whole magnitude. -/
def IsLiteral (t : Text) (v : Int) : Prop :=
  ∃ n : Nat, (IsMagnitude t n ∧ v = n) ∨ (∃ m, t = '+' :: m ∧ IsMagnitude m n ∧ v = n) ∨ (∃ m, t = '-' :: m ∧ IsMagnitude m n ∧ v = -(n : Int))

/-- The instruction `i` is the one that the line spells: its mnemonic's constructor, over the registers its operands name in the order of R63 and
the value of its literal or target in the range of R83. The pseudo-instructions stand for such a line (R87 to R94). -/
structure Spells (pi : ParsedInstruction) (sym : SymbolTable) (i : Instr) : Prop where
  register : ∀ l ∈ registerLines, ∀ a b c, pi.mnemonic = l.1 → pi.operands = [a, b, c] →
    ∃ rd rs1 rs2, parseRegister (trimText a) = some rd ∧ parseRegister (trimText b) = some rs1 ∧ parseRegister (trimText c) = some rs2 ∧
      i = l.2 rd rs1 rs2
  immediate : ∀ l ∈ immediateLines, ∀ a b c, pi.mnemonic = l.mnemonic → pi.operands = [a, b, c] →
    ∃ r rs1 v, parseRegister (trimText a) = some r ∧ parseRegister (trimText b) = some rs1 ∧ parseLiteral (trimText c) = some v ∧
      l.lo ≤ v ∧ v ≤ l.hi ∧ i = l.instr r rs1 (BitVec.ofInt 32 v)
  branch : ∀ l ∈ branchLines, ∀ a b c, pi.mnemonic = l.1 → pi.operands = [a, b, c] →
    ∃ rs1 rs2 v, parseRegister (trimText a) = some rs1 ∧ parseRegister (trimText b) = some rs2 ∧
      targetOffset pi.address sym (trimText c) = some v ∧ v % 2 = 0 ∧ -4096 ≤ v ∧ v ≤ 4094 ∧ i = l.2 rs1 rs2 (BitVec.ofInt 32 v)
  jump : ∀ a b, pi.mnemonic = "jal".toList → pi.operands = [a, b] →
    ∃ rd v, parseRegister (trimText a) = some rd ∧ targetOffset pi.address sym (trimText b) = some v ∧ v % 2 = 0 ∧
      -1048576 ≤ v ∧ v ≤ 1048574 ∧ i = .jal rd (BitVec.ofInt 32 v)
  jumpLink : ∀ a, pi.mnemonic = "jal".toList → pi.operands = [a] →
    ∃ v, targetOffset pi.address sym (trimText a) = some v ∧ v % 2 = 0 ∧ -1048576 ≤ v ∧ v ≤ 1048574 ∧ i = .jal 1 (BitVec.ofInt 32 v)

/-- What a target operand `t` in a position of range `[lo, hi]` makes of a line that has passed its other checks, its instruction being `instr` of the
offset: E_SYMBOL, then E_OFFSET_ALIGN, then E_RANGE, else the word (R80, R83, R85). -/
def targetOutcome (lo hi : Int) (instr : Word → Instr) (pi : ParsedInstruction) (sym : SymbolTable) (t : Text) : Except EncodingError Word :=
  match targetOffset pi.address sym t with
  | none => .error ⟨.E_SYMBOL, some t, pi.originalText⟩
  | some v =>
    if v % 2 = 1 then .error ⟨.E_OFFSET_ALIGN, some t, pi.originalText⟩
    else if v < lo ∨ hi < v then .error ⟨.E_RANGE, some t, pi.originalText⟩
    else .ok (encode (instr (BitVec.ofInt 32 v)))

/-- What a literal operand makes of such a line: E_IMM_SYNTAX, then E_RANGE, else the word (R82, R83, R85). -/
def literalOutcome (l : ImmediateLine) (r rs1 : RegIdx) (pi : ParsedInstruction) (t : Text) : Except EncodingError Word :=
  match parseLiteral t with
  | none => .error ⟨.E_IMM_SYNTAX, some t, pi.originalText⟩
  | some v =>
    if v < l.lo ∨ l.hi < v then .error ⟨.E_RANGE, some t, pi.originalText⟩
    else .ok (encode (l.instr r rs1 (BitVec.ofInt 32 v)))

end Reference

-- One instruction on its own in the pipeline (70_reset_and_hazards.md R203).

/-- The four latches hold no instruction, the word `w` is at the pc, and its two delay slots hold the all-zero word. -/
structure State.Alone (s : State) (w : Word) : Prop where
  fdEmpty : (decode s.fd.instructionWord).control = ControlFields.bubble
  deEmpty : s.de.control = ControlFields.bubble
  emEmpty : s.em.control = ControlFields.bubble
  mwEmpty : s.mw.control = ControlFields.bubble
  memory  : s.mem.wf = true
  word    : s.mem.readWord s.pc = w
  slot1   : s.mem.readWord (s.pc + 4) = 0
  slot2   : s.mem.readWord (s.pc + 8) = 0

/-- Register `rd` holds `v`, unless it is register 0, and every other register is as before. -/
def WritesOnly (s t : State) (rd : RegIdx) (v : Word) : Prop := ∀ r, t.reg r = if r = rd ∧ r ≠ 0 then v else s.reg r

/-- Every register is as before. -/
def SameRegs (s t : State) : Prop := ∀ r, t.reg r = s.reg r

/-- Every byte of memory is as before. -/
def SameBytes (s t : State) : Prop := ∀ a, t.mem.readByte a = s.mem.readByte a

end Sys2Proof.Machine
end

