-- ==== Sys2Proof/Certificates/Slice0/Obligations.lean ====
section
/-! DEFINITION. The statements for the provers. Each docstring names the rule of spec/ it comes from. -/

open Sys2Proof Sys2Proof.Machine

-- Encoding and decoding (30_encoding.md).

/-- Words written out from the spec's encodings decode to their instructions, one or more per family (95_test_vectors.md 2.1). -/
def Obligations.SpecWordsDecode : Prop :=
  decodeWord 0x407302B3 = .ok (.sub 5 6 7) ∧ decodeWord 0x80000093 = .ok (.addi 1 0 (BitVec.ofInt 32 (-2048))) ∧
  decodeWord 0x41F15093 = .ok (.srai 1 2 31) ∧ decodeWord 0xFFF2C203 = .ok (.lbu 4 5 (BitVec.ofInt 32 (-1))) ∧
  decodeWord 0x81F12023 = .ok (.sw 31 2 (BitVec.ofInt 32 (-2048))) ∧
  decodeWord 0xFE0098E3 = .ok (.bne 1 0 (BitVec.ofInt 32 (-16))) ∧
  decodeWord 0x001000EF = .ok (.jal 1 2048) ∧ decodeWord 0x7FF280E7 = .ok (.jalr 1 5 2047) ∧ decodeWord 0 = .ok .bubble

/-- R96: Decode is the opcode table's row of the word, and a bubble with the mark where there is none (R98). -/
def Obligations.DecodeFollowsOpcodeTable : Prop :=
  ∀ w : Word, (decode w).rs1 = w.extractLsb' 15 5 ∧ (decode w).rs2 = w.extractLsb' 20 5 ∧
    (∀ r ∈ opcodeTable, w &&& r.mask = r.pattern →
      (decode w).control = controlOf r.kind (w.extractLsb' 7 5) ∧ (decode w).immediate = immediateOf r.kind w ∧
        (decode w).unrecognised = false) ∧
    ((∀ r ∈ opcodeTable, w &&& r.mask ≠ r.pattern) →
      (decode w).control = ControlFields.bubble ∧ (decode w).immediate = 0 ∧ (decode w).unrecognised = true)

/-- R102: no word matches two rows of the opcode table. -/
def Obligations.AtMostOneRowMatches : Prop :=
  ∀ w : Word, ∀ r ∈ opcodeTable, ∀ q ∈ opcodeTable, w &&& r.mask = r.pattern → w &&& q.mask = q.pattern → r = q

/-- R100: the control fields and the immediate of every opKind. -/
def Obligations.ControlFieldsPerKind : Prop :=
  (∀ k ∈ [OpKind.ADD, .SUB, .SLL, .SLT, .SLTU, .XOR, .SRL, .SRA, .OR, .AND], ∀ rd w,
    controlOf k rd = ⟨rd, true, k, false, false, .NONE⟩ ∧ immediateOf k w = 0) ∧
  (∀ k ∈ [OpKind.ADDI, .SLTI, .SLTIU, .XORI, .ORI, .ANDI], ∀ rd w,
    controlOf k rd = ⟨rd, true, k, false, false, .NONE⟩ ∧ immediateOf k w = immI w) ∧
  (∀ k ∈ [OpKind.SLLI, .SRLI, .SRAI], ∀ rd w,
    controlOf k rd = ⟨rd, true, k, false, false, .NONE⟩ ∧ immediateOf k w = shamtOf w) ∧
  (∀ k ∈ [OpKind.LB, .LBU, .LW], ∀ rd w,
    controlOf k rd = ⟨rd, true, k, true, false, .NONE⟩ ∧ immediateOf k w = immI w) ∧
  (∀ k ∈ [OpKind.SB, .SW], ∀ rd w,
    controlOf k rd = ⟨0, false, k, false, true, .NONE⟩ ∧ immediateOf k w = immS w) ∧
  (∀ k ∈ [(OpKind.BEQ, BranchKind.BEQ), (.BNE, .BNE), (.BLT, .BLT), (.BGE, .BGE), (.BLTU, .BLTU), (.BGEU, .BGEU)], ∀ rd w,
    controlOf k.1 rd = ⟨0, false, k.1, false, false, k.2⟩ ∧ immediateOf k.1 w = immB w) ∧
  (∀ rd w, controlOf .JAL rd = ⟨rd, true, .JAL, false, false, .JAL⟩ ∧ immediateOf .JAL w = immJ w) ∧
  (∀ rd w, controlOf .JALR rd = ⟨rd, true, .JALR, false, false, .JALR⟩ ∧ immediateOf .JALR w = immI w) ∧
  (∀ rd w, controlOf .BUBBLE rd = ⟨0, false, .BUBBLE, false, false, .NONE⟩ ∧ immediateOf .BUBBLE w = 0)

/-- R102: decoding an encoded well-formed instruction gives it back, whatever its operands. -/
def Obligations.DecodeAfterEncode : Prop := ∀ i : Instr, i.wellFormed = true → decodeWord (encode i) = .ok i

/-- R99: every bit of every row is an opcode, function, register or immediate bit, so a word that decodes is the encoding of what it decodes to. -/
def Obligations.EncodeAfterDecode : Prop :=
  ∀ (w : Word) (i : Instr), decodeWord w = .ok i → i.wellFormed = true ∧ encode i = w

/-- R71 to R75: the value of each immediate, bit by bit of the word, as the signed (or, for `shamt`, unsigned) number it denotes. -/
def Obligations.ImmediateValues : Prop :=
  ∀ w : Word,
    (immI w).toInt = (w.toNat / 2 ^ 20 : Int) - (if w.getLsbD 31 then 4096 else 0) ∧
    (immS w).toInt = (w.toNat / 2 ^ 25 * 32 + w.toNat / 2 ^ 7 % 32 : Int) - (if w.getLsbD 31 then 4096 else 0) ∧
    (immB w).toInt =
      (w.toNat / 2 ^ 7 % 2 * 2048 + w.toNat / 2 ^ 25 % 64 * 32 + w.toNat / 2 ^ 8 % 16 * 2 : Int) -
        (if w.getLsbD 31 then 4096 else 0) ∧
    (immJ w).toInt =
      (w.toNat / 2 ^ 12 % 256 * 4096 + w.toNat / 2 ^ 20 % 2 * 2048 + w.toNat / 2 ^ 21 % 1024 * 2 : Int) -
        (if w.getLsbD 31 then 1048576 else 0) ∧
    (shamtOf w).toNat = w.toNat / 2 ^ 20 % 32

-- Memory (20_memory.md).

/-- R42: the primitives, little-endian; the bytes of a store are the bytes named, and no other byte changes (R47). -/
def Obligations.LittleEndianAccesses : Prop :=
  ∀ (m : Memory) (a v : Word), m.wf = true →
    (m.readWord a).toNat = (m.readByte a).toNat + 256 * (m.readByte (a + 1)).toNat + 65536 * (m.readByte (a + 2)).toNat +
      16777216 * (m.readByte (a + 3)).toNat ∧
    (m.storeByte a v).readByte a = v.extractLsb' 0 8 ∧
    (∀ b, b ≠ a → (m.storeByte a v).readByte b = m.readByte b) ∧
    (m.storeWord a v).readByte a = v.extractLsb' 0 8 ∧ (m.storeWord a v).readByte (a + 1) = v.extractLsb' 8 8 ∧
    (m.storeWord a v).readByte (a + 2) = v.extractLsb' 16 8 ∧ (m.storeWord a v).readByte (a + 3) = v.extractLsb' 24 8 ∧
    (∀ b, b ∉ [a, a + 1, a + 2, a + 3] → (m.storeWord a v).readByte b = m.readByte b) ∧
    (m.storeWord a v).readWord a = v ∧ (fetch m a).instructionWord = m.readWord a

/-- The model's memory is canonical (log 4): two memories in the form that read alike at every address are the same list. -/
def Obligations.EqualReadsEqualMemories : Prop :=
  ∀ m n : Memory, m.wf = true → n.wf = true → (∀ a : Word, m.readByte a = n.readByte a) → m = n

-- The step and its stages (40_pipeline_engine.md).

/-- The step is the meaning of the instruction in Execute: when the DE latch was decoded from the word of a well-formed instruction,
`step` is `exec` of that instruction (R111, R114). -/
def Obligations.StepRunsInstructionInExecute : Prop :=
  ∀ (s : State) (i : Instr), i.wellFormed = true → s.de.instructionWord = encode i →
    s.de.control = (decode (encode i)).control → s.de.immediate = (decode (encode i)).immediate → step s = exec i s

/-- A well-formed instruction whose bytes are at the pc after this cycle's store is fetched in this step, decoded in the next with the registers as they
are before that step's Writeback, and run by `exec` in the third (R111, R115, R116; 70_reset_and_hazards.md R203). -/
def Obligations.FetchedWordReachesExecute : Prop :=
  ∀ (s : State) (i : Instr), i.wellFormed = true → s.memNext.readWord s.pc = encode i →
    ∃ s1 s2, step s = .next s1 ∧ s1.fd = { pc := s.pc, instructionWord := encode i, nextPc := s.pc + 4 } ∧
      step s1 = .next s2 ∧ s2.de.instr = i ∧ s2.de.operandA = s1.reg (rs1Of (encode i)) ∧
      s2.de.operandB = s1.reg (rs2Of (encode i)) ∧ s2.de.nextPc = s.pc + 4 ∧ step s2 = exec i s2

/-- The state that `withFetchWord` prepares runs the word's instruction in its very next step (log 6). -/
def Obligations.PlacedWordRunsNext : Prop :=
  ∀ (s : State) (i : Instr), s.mem.wf = true → i.wellFormed = true →
    decodeTableWord 32 (encode i).toNat = some i ∧
      step (s.withFetchWord 32 (encode i).toNat) = exec i (s.withFetchWord 32 (encode i).toNat) ∧
      (s.withFetchWord 32 (encode i).toNat).de.operandA = s.reg (rs1Of (encode i)) ∧
      (s.withFetchWord 32 (encode i).toNat).de.operandB = s.reg (rs2Of (encode i)) ∧
      (s.withFetchWord 32 (encode i).toNat).de.nextPc = s.pc + 4

/-- R122: `step()` is total on every state, and its outcome is always the one next state. -/
def Obligations.StepIsTotal : Prop := ∀ s, ∃ t, step s = .next t ∧ ∀ o, step s = o → o = .next t

/-- The frame of every instruction in its Execute cycle: it writes no register and no byte itself (R112, R113, R118). -/
def Obligations.ExecuteFrame : Prop := ∀ (i : Instr) (s t : State), exec i s = .next t → CycleRest s t

/-- R112: Writeback writes the selected value into the destination register, unless it is register 0, and nothing else. -/
def Obligations.WritebackRule : Prop :=
  ∀ s, ∃ t, step s = .next t ∧
    (s.mw.control.regWriteEnable = true → s.mw.control.destReg ≠ 0 → s.mw.control.memReadEnable = true →
      t.reg s.mw.control.destReg = s.mw.loadedValue) ∧
    (s.mw.control.regWriteEnable = true → s.mw.control.destReg ≠ 0 → s.mw.control.memReadEnable = false →
      t.reg s.mw.control.destReg = s.mw.aluResult) ∧
    (∀ r, r ≠ s.mw.control.destReg → t.reg r = s.reg r) ∧
    (s.mw.control.regWriteEnable = false ∨ s.mw.control.destReg = 0 → ∀ r, t.reg r = s.reg r)

/-- R113: the Memory stage's store and load; the store is applied before this step's Fetch, and no access fails. -/
def Obligations.MemoryStageRule : Prop :=
  ∀ s, ∃ t, step s = .next t ∧
    (s.em.control.memWriteEnable = true → s.em.control.opKind = .SW → t.mem = s.mem.storeWord s.em.aluResult s.em.storeValue) ∧
    (s.em.control.memWriteEnable = true → s.em.control.opKind = .SB → t.mem = s.mem.storeByte s.em.aluResult s.em.storeValue) ∧
    (s.em.control.memWriteEnable = false → t.mem = s.mem) ∧
    (s.em.control.memReadEnable = true → s.em.control.opKind = .LW → t.mw.loadedValue = t.mem.readWord s.em.aluResult) ∧
    (s.em.control.memReadEnable = true → s.em.control.opKind = .LB →
      t.mw.loadedValue = (t.mem.readByte s.em.aluResult).signExtend 32) ∧
    (s.em.control.memReadEnable = true → s.em.control.opKind = .LBU →
      t.mw.loadedValue = (t.mem.readByte s.em.aluResult).setWidth 32) ∧
    (s.em.control.memReadEnable = false → t.mw.loadedValue = 0) ∧ t.mw.aluResult = s.em.aluResult ∧
    t.fd.instructionWord = t.mem.readWord s.pc

/-- R116: Fetch and the pc: the word at the old pc, and the redirect of this step's Execute or `pc + 4`. -/
def Obligations.FetchAndPcRule : Prop :=
  ∀ s, ∃ t, step s = .next t ∧ t.fd = { pc := s.pc, instructionWord := t.mem.readWord s.pc, nextPc := s.pc + 4 } ∧
    (∀ target, Reference.redirect s.de = some target → t.pc = target ∧ t.em.branchTaken = true) ∧
    (Reference.redirect s.de = none → t.pc = s.pc + 4 ∧ t.em.branchTaken = false)

/-- R117: Decode observes the register file before this cycle's Writeback; the write is seen by the Decode of the next step. -/
def Obligations.RegisterReadBeforeWrite : Prop :=
  ∀ s, ∃ t u, step s = .next t ∧ t.de.operandA = s.reg (rs1Of s.fd.instructionWord) ∧
    t.de.operandB = s.reg (rs2Of s.fd.instructionWord) ∧ step t = .next u ∧
    u.de.operandA = t.reg (rs1Of t.fd.instructionWord) ∧ u.de.operandB = t.reg (rs2Of t.fd.instructionWord) ∧
    (s.mw.control.regWriteEnable = true → s.mw.control.destReg ≠ 0 →
      t.reg s.mw.control.destReg = if s.mw.control.memReadEnable then s.mw.loadedValue else s.mw.aluResult)

/-- R22: register 0 reads as 0 whatever the storage holds; no step changes it, and Writeback writes nothing at all unless the write is enabled and its
destination is not register 0; the host's write to it changes nothing. -/
def Obligations.ZeroWire : Prop :=
  ∀ s : State, s.reg 0 = 0 ∧
    (∃ t, step s = .next t ∧ t.x[0] = s.x[0] ∧ (s.mw.control.regWriteEnable = false ∨ s.mw.control.destReg = 0 → t.x = s.x)) ∧
    (∀ v : Int, -2147483648 ≤ v → v ≤ 2147483647 → s.setRegister 0 v = .next s)

/-- R35: `cycles` counts steps, and no instruction reads it. -/
def Obligations.CyclesCountSteps : Prop :=
  (∀ p words, (construct p words).cycles = 0) ∧
    (∀ (n : Nat) (s : State), ∃ t, runSteps n s = .next t ∧ t.cycles = s.cycles + n) ∧
    ∀ (n : Nat) (s : State), ∃ t, step s = .next t ∧ step { s with cycles := n } = .next { t with cycles := n + 1 }

/-- R36: `illegalSeen` becomes true, for good, in the first step whose Decode meets a nonzero word with no row of the opcode table, and no stage depends
on it. -/
def Obligations.IllegalSeenRule : Prop :=
  (∀ p words, (construct p words).illegalSeen = false) ∧
    ∀ s, ∃ t, step s = .next t ∧
      (t.illegalSeen = true ↔ s.illegalSeen = true ∨
        (s.fd.instructionWord ≠ 0 ∧ ∀ r ∈ opcodeTable, s.fd.instructionWord &&& r.mask ≠ r.pattern)) ∧
      ∀ b, ∃ c, step { s with illegalSeen := b } = .next { t with illegalSeen := c }

/-- R97: the all-zero word decodes to a bubble and sets no mark. -/
def Obligations.ZeroWordIsBubble : Prop :=
  ∀ s : State, s.fd.instructionWord = 0 →
    ∃ t, step s = .next t ∧ t.de.control = ControlFields.bubble ∧ t.de.immediate = 0 ∧ t.illegalSeen = s.illegalSeen

/-- R98: an unrecognised word decodes to a bubble, the Engine keeps stepping, and the mark is set. -/
def Obligations.UnrecognisedWordIsBubble : Prop :=
  ∀ s : State, s.fd.instructionWord ≠ 0 → (∀ r ∈ opcodeTable, s.fd.instructionWord &&& r.mask ≠ r.pattern) →
    ∃ t, step s = .next t ∧ t.de.control = ControlFields.bubble ∧ t.de.immediate = 0 ∧ t.illegalSeen = true

-- Execute, per family (41..44): each completes, in every state.

/-- R141 to R150: the result of every register-register instruction in Execute. -/
def Obligations.AluRegisterExecutes : Prop :=
  ∀ f ∈ Reference.aluRegister, ∀ (rd rs1 rs2 : RegIdx) (s : State),
    CompletesWith (f.1 rd rs1 rs2) s (f.2 s.operandA s.operandB) false (s.pc + 4)

/-- R152 to R160: the result of every register-immediate instruction in Execute. -/
def Obligations.AluImmediateExecutes : Prop :=
  ∀ f ∈ Reference.aluImmediate, ∀ (rd rs1 : RegIdx) (imm : Word) (s : State),
    CompletesWith (f.1 rd rs1 imm) s (f.2 s.operandA imm) false (s.pc + 4)

/-- R161: the effective address of every load and store. -/
def Obligations.LoadStoreExecutes : Prop :=
  ∀ f ∈ [Instr.lb, .lbu, .lw, .sb, .sw], ∀ (r rs1 : RegIdx) (imm : Word) (s : State),
    CompletesWith (f r rs1 imm) s (Reference.add s.operandA imm) false (s.pc + 4)

/-- R171 to R177: every branch: `aluResult` is the target, taken or not, and the pc follows the condition. -/
def Obligations.BranchExecutes : Prop :=
  ∀ f ∈ Reference.branches, ∀ (rs1 rs2 : RegIdx) (offset : Word) (s : State),
    CompletesWith (f.1 rs1 rs2 offset) s (s.pcI + offset) (f.2 s.operandA s.operandB)
      (if f.2 s.operandA s.operandB = true then s.pcI + offset else s.pc + 4)

/-- R178, R179: `jal` and `jalr`: the link value and the target; the jump is always taken. -/
def Obligations.JumpExecutes : Prop :=
  ∀ (rd rs1 : RegIdx) (imm : Word) (s : State),
    CompletesWith (.jal rd imm) s s.npc true (s.pcI + imm) ∧
      CompletesWith (.jalr rd rs1 imm) s s.npc true (Reference.jalrTarget s.operandA imm)

/-- R97, R114: a bubble's body is `(0, 0, None)`. -/
def Obligations.BubbleExecutes : Prop := ∀ s : State, CompletesWith .bubble s 0 false (s.pc + 4)

-- One instruction on its own, from its fetch to its Writeback (70_reset_and_hazards.md R203), and its frame.

/-- R140 to R150: fetched in step 1, a register-register instruction has written its result, and nothing else, after step 5. -/
def Obligations.AluRegisterAlone : Prop :=
  ∀ f ∈ Reference.aluRegister, ∀ (rd rs1 rs2 : RegIdx) (s : State), s.Alone (encode (f.1 rd rs1 rs2)) →
    ∃ t, runSteps 5 s = .next t ∧ WritesOnly s t rd (f.2 (s.reg rs1) (s.reg rs2)) ∧ SameBytes s t ∧ t.pc = s.pc + 20

/-- R151 to R160: the same for a well-formed register-immediate instruction. -/
def Obligations.AluImmediateAlone : Prop :=
  ∀ f ∈ Reference.aluImmediate, ∀ (rd rs1 : RegIdx) (imm : Word) (s : State), (f.1 rd rs1 imm).wellFormed = true →
    s.Alone (encode (f.1 rd rs1 imm)) →
    ∃ t, runSteps 5 s = .next t ∧ WritesOnly s t rd (f.2 (s.reg rs1) imm) ∧ SameBytes s t ∧ t.pc = s.pc + 20

/-- R161 to R164: a load has written what memory holds at the effective address, extended, and nothing else. -/
def Obligations.LoadsAlone : Prop :=
  ∀ f ∈ Reference.loads, ∀ (rd rs1 : RegIdx) (imm : Word) (s : State), (f.1 rd rs1 imm).wellFormed = true →
    s.Alone (encode (f.1 rd rs1 imm)) →
    ∃ t, runSteps 5 s = .next t ∧ WritesOnly s t rd (f.2 s.mem (s.reg rs1 + imm)) ∧ SameBytes s t ∧ t.pc = s.pc + 20

/-- R161, R165, R166: a store has written its byte or its four bytes at the effective address, little-endian, no other byte and no register. -/
def Obligations.StoresAlone : Prop :=
  (∀ (rs2 rs1 : RegIdx) (imm : Word) (s : State), (Instr.sb rs2 rs1 imm).wellFormed = true → s.Alone (encode (.sb rs2 rs1 imm)) →
    ∃ t, runSteps 5 s = .next t ∧ SameRegs s t ∧ t.pc = s.pc + 20 ∧
      t.mem.readByte (s.reg rs1 + imm) = (s.reg rs2).extractLsb' 0 8 ∧
      ∀ a, a ≠ s.reg rs1 + imm → t.mem.readByte a = s.mem.readByte a) ∧
  (∀ (rs2 rs1 : RegIdx) (imm : Word) (s : State), (Instr.sw rs2 rs1 imm).wellFormed = true → s.Alone (encode (.sw rs2 rs1 imm)) →
    ∃ t, runSteps 5 s = .next t ∧ SameRegs s t ∧ t.pc = s.pc + 20 ∧
      t.mem.readByte (s.reg rs1 + imm) = (s.reg rs2).extractLsb' 0 8 ∧
      t.mem.readByte (s.reg rs1 + imm + 1) = (s.reg rs2).extractLsb' 8 8 ∧
      t.mem.readByte (s.reg rs1 + imm + 2) = (s.reg rs2).extractLsb' 16 8 ∧
      t.mem.readByte (s.reg rs1 + imm + 3) = (s.reg rs2).extractLsb' 24 8 ∧
      ∀ a, a ∉ [s.reg rs1 + imm, s.reg rs1 + imm + 1, s.reg rs1 + imm + 2, s.reg rs1 + imm + 3] →
        t.mem.readByte a = s.mem.readByte a)

/-- R170 to R177: a branch has written nothing, and the pc has gone to the target (two fetches ago) exactly if its condition holds. -/
def Obligations.BranchesAlone : Prop :=
  ∀ f ∈ Reference.branches, ∀ (rs1 rs2 : RegIdx) (offset : Word) (s : State), (f.1 rs1 rs2 offset).wellFormed = true →
    s.Alone (encode (f.1 rs1 rs2 offset)) →
    ∃ t, runSteps 5 s = .next t ∧ SameRegs s t ∧ SameBytes s t ∧
      t.pc = if f.2 (s.reg rs1) (s.reg rs2) = true then s.pc + offset + 8 else s.pc + 20

/-- R178, R179: a jump has written its link, the address after it, and nothing else; the pc has gone to the target two fetches ago. -/
def Obligations.JumpsAlone : Prop :=
  (∀ (rd : RegIdx) (offset : Word) (s : State), (Instr.jal rd offset).wellFormed = true → s.Alone (encode (.jal rd offset)) →
    ∃ t, runSteps 5 s = .next t ∧ WritesOnly s t rd (s.pc + 4) ∧ SameBytes s t ∧ t.pc = s.pc + offset + 8) ∧
  (∀ (rd rs1 : RegIdx) (imm : Word) (s : State), (Instr.jalr rd rs1 imm).wellFormed = true → s.Alone (encode (.jalr rd rs1 imm)) →
    ∃ t, runSteps 5 s = .next t ∧ WritesOnly s t rd (s.pc + 4) ∧ SameBytes s t ∧
      t.pc = Reference.jalrTarget (s.reg rs1) imm + 8)

/-- R97, R121: the all-zero word passes through with no effect but the fetch. -/
def Obligations.BubbleAlone : Prop :=
  ∀ s : State, s.Alone 0 → ∃ t, runSteps 5 s = .next t ∧ SameRegs s t ∧ SameBytes s t ∧ t.pc = s.pc + 20

-- Hazards (70_reset_and_hazards.md).

/-- R204, R205: with the producer in Execute, the consumers fetched 1, 2 and 3 slots after it read, in their Decode, registers that do not depend on it
(they are the registers of the same run with a bubble in its place); the one 4 slots after it reads its value, and so does every later one as long as no
other write to its destination has been committed in between. `s3` is the state in which the value has been committed; `u` the one `n` steps later, in
which the consumer at distance `4 + n` is decoded. -/
def Obligations.RegisterReadAfterWriteDistance : Prop :=
  ∀ s s1 s2 s3 s4 b1 b2 : State, s.de.control.regWriteEnable = true → s.de.control.destReg ≠ 0 →
    step s = .next s1 → step s1 = .next s2 → step s2 = .next s3 → step s3 = .next s4 →
    step { s with de := DecodeExecuteLatch.bubble } = .next b1 → step b1 = .next b2 →
    (s1.de.operandA = s.reg (rs1Of s.fd.instructionWord) ∧ s1.de.operandB = s.reg (rs2Of s.fd.instructionWord)) ∧
    (s2.de.operandA = b1.reg (rs1Of s1.fd.instructionWord) ∧ s2.de.operandB = b1.reg (rs2Of s1.fd.instructionWord)) ∧
    (s3.de.operandA = b2.reg (rs1Of s2.fd.instructionWord) ∧ s3.de.operandB = b2.reg (rs2Of s2.fd.instructionWord)) ∧
    (s4.de.operandA = s3.reg (rs1Of s3.fd.instructionWord) ∧ s4.de.operandB = s3.reg (rs2Of s3.fd.instructionWord)) ∧
    (s3.reg s.de.control.destReg = if s.de.control.memReadEnable then s2.mw.loadedValue else s1.em.aluResult) ∧
    ∀ (n : Nat) (u v : State), runSteps n s3 = .next u → step u = .next v →
      (∀ j w, j < n → runSteps j s3 = .next w → ¬(w.mw.control.regWriteEnable = true ∧ w.mw.control.destReg = s.de.control.destReg)) →
      (rs1Of u.fd.instructionWord = s.de.control.destReg →
        v.de.operandA = if s.de.control.memReadEnable then s2.mw.loadedValue else s1.em.aluResult) ∧
      (rs2Of u.fd.instructionWord = s.de.control.destReg →
        v.de.operandB = if s.de.control.memReadEnable then s2.mw.loadedValue else s1.em.aluResult)

/-- R119, R206: after a redirect the two instructions already on their way, at FD and at the pc, go on unflushed, and the target is fetched next. -/
def Obligations.TwoDelaySlots : Prop :=
  ∀ (s : State) (target : Word), Reference.redirect s.de = some target →
    ∃ s1 s2, step s = .next s1 ∧ step s1 = .next s2 ∧
      s1.de.instructionWord = s.fd.instructionWord ∧ s1.de.control = (decode s.fd.instructionWord).control ∧
      s1.fd.pc = s.pc ∧ s2.de.instructionWord = s1.fd.instructionWord ∧ s2.de.control = (decode s1.fd.instructionWord).control ∧
      s2.fd.pc = target

/-- R207: a redirect in the first delay slot lets exactly one instruction at the first target be fetched, one in the second lets two. -/
def Obligations.RedirectInDelaySlot : Prop :=
  ∀ (s s1 s2 s3 s4 : State) (tX tY : Word), Reference.redirect s.de = some tX →
    step s = .next s1 → step s1 = .next s2 → step s2 = .next s3 → step s3 = .next s4 →
    (Reference.redirect s1.de = some tY → s1.fd.pc = s.pc ∧ s2.fd.pc = tX ∧ s3.fd.pc = tY) ∧
    (Reference.redirect s1.de = none → Reference.redirect s2.de = some tY →
      s1.fd.pc = s.pc ∧ s2.fd.pc = tX ∧ s3.fd.pc = tX + 4 ∧ s4.fd.pc = tY)

/-- R51, R54, R209: a word stored by the Memory stage is the word that the same step's Fetch of that address reads; the word already in FD runs as it was
fetched. -/
def Obligations.StoreSeenBySameStepFetch : Prop :=
  ∀ s : State, s.mem.wf = true → s.em.control.memWriteEnable = true → s.em.control.opKind = .SW → s.em.aluResult = s.pc →
    ∃ t, step s = .next t ∧ t.fd.instructionWord = s.em.storeValue ∧ t.de.instructionWord = s.fd.instructionWord

/-- R50, R208: a load directly behind a store to the same address reads the stored value. -/
def Obligations.LoadBehindStore : Prop :=
  ∀ s s1 s2 : State, s.mem.wf = true → s.em.control = (decode s.em.instructionWord).control →
    s.de.control = (decode s.de.instructionWord).control → s.em.control.opKind = .SW → s.de.control.opKind = .LW →
    s.operandA + s.de.immediate = s.em.aluResult → step s = .next s1 → step s1 = .next s2 → s2.mw.loadedValue = s.em.storeValue

/-- R201: after construction the first four steps write no register. -/
def Obligations.FirstFourStepsWriteNoRegister : Prop :=
  ∀ (p : Params) (words : WordMap) (n : Nat), n ≤ 4 → ∃ t, runSteps n (construct p words) = .next t ∧ SameRegs (construct p words) t

-- Reset, invariants, end of run.

/-- R200, R37: construction: every piece of state, for every word map and all parameters. -/
def Obligations.ConstructionIsReset : Prop :=
  ∀ (p : Params) (words : WordMap),
    (construct p words).pc = p.imemBase ∧ (construct p words).reg 0 = 0 ∧ (construct p words).x[0] = 0 ∧
    (∀ r : RegIdx, r ≠ 0 → (construct p words).reg r = p.regInit.get r.toFin) ∧
    (∀ a, (construct p words).mem.readByte a =
      (match Reference.wordMapByte words a with
       | some b => b
       | none => (match Reference.dataByte p.dataInit a with
         | some b => b
         | none => 0))) ∧
    (construct p words).fd = ⟨0, 0, 0⟩ ∧ (construct p words).de = ⟨0, 0, 0, 0, 0, ControlFields.bubble⟩ ∧
    (construct p words).em = ⟨0, 0, 0, false, ControlFields.bubble⟩ ∧ (construct p words).mw = ⟨0, 0, 0, ControlFields.bubble⟩ ∧
    (construct p words).cycles = 0 ∧ (construct p words).illegalSeen = false

/-- The invariant holds after every construction, so at State.reset too. -/
def Obligations.ConstructionMeetsInvariant : Prop := State.reset.Inv ∧ ∀ (p : Params) (words : WordMap), (construct p words).Inv

/-- The invariant (canonical memory, zero wire, latches that hold the decode of their word) is kept by every step. -/
def Obligations.StepKeepsInvariant : Prop := ∀ s t : State, s.Inv → step s = .next t → t.Inv

/-- R34, R210: the host's calls keep the invariant, and none but `step` changes a latch, the pc, `cycles` or `illegalSeen` (R124). -/
def Obligations.HostCallsKeepInvariant : Prop :=
  ∀ (op : HostOp) (s t : State), s.Inv → op.apply s = .next t →
    t.Inv ∧ (op ≠ .step → t.pc = s.pc ∧ t.fd = s.fd ∧ t.de = s.de ∧ t.em = s.em ∧ t.mw = s.mw ∧ t.cycles = s.cycles ∧
      t.illegalSeen = s.illegalSeen)

/-- R182: a host operation faults exactly when an argument is outside its range, and with which fault (R124; the faults of values and addresses that no
typed interface can pass are the model's choice, and so is the first argument's fault where both are out of range: log 9). -/
def Obligations.HostFaultsExactlyOutOfRange : Prop :=
  ∀ (s : State) (i v a b : Int),
    ((∃ t, s.setRegister i v = .next t) ↔ (0 ≤ i ∧ i ≤ 31) ∧ -2147483648 ≤ v ∧ v ≤ 2147483647) ∧
    (¬(0 ≤ i ∧ i ≤ 31) → s.setRegister i v = .fault .hostRegisterIndex ∧ s.getRegister i = .error .hostRegisterIndex) ∧
    ((0 ≤ i ∧ i ≤ 31) → ¬(-2147483648 ≤ v ∧ v ≤ 2147483647) → s.setRegister i v = .fault .hostRegisterValue) ∧
    ((0 ≤ i ∧ i ≤ 31) → s.getRegister i = .ok (s.reg (BitVec.ofInt 5 i)).toInt) ∧
    ((∃ t, s.setMemoryByte a b = .next t) ↔ (0 ≤ a ∧ a ≤ 4294967295) ∧ 0 ≤ b ∧ b ≤ 255) ∧
    (¬(0 ≤ a ∧ a ≤ 4294967295) → s.setMemoryByte a b = .fault .hostAddress ∧ s.getMemoryByte a = .error .hostAddress) ∧
    ((0 ≤ a ∧ a ≤ 4294967295) → ¬(0 ≤ b ∧ b ≤ 255) → s.setMemoryByte a b = .fault .hostByteValue) ∧
    ((0 ≤ a ∧ a ≤ 4294967295) → s.getMemoryByte a = .ok (s.mem.readByte (BitVec.ofInt 32 a)))

/-- R21, R56, R124, R210: what the host writes is what it and the next step read. A register: the next Decode that names it, as rs1 or as rs2. A byte: the
next Fetch and the next Memory stage's load that cover it, unless that step's own store covers it; the word already in FD is not read again. -/
def Obligations.HostWritesAreRead : Prop :=
  ∀ (s t u : State) (i v a b : Int), s.mem.wf = true → step t = .next u →
    (s.setRegister i v = .next t →
      (1 ≤ i → t.getRegister i = .ok v) ∧ (∀ r : RegIdx, r ≠ BitVec.ofInt 5 i → t.reg r = s.reg r) ∧ t.mem = s.mem ∧
      (rs1Of s.fd.instructionWord = BitVec.ofInt 5 i → 1 ≤ i → u.de.operandA.toInt = v) ∧
      (rs2Of s.fd.instructionWord = BitVec.ofInt 5 i → 1 ≤ i → u.de.operandB.toInt = v)) ∧
    (s.setMemoryByte a b = .next t →
      (t.mem.readByte (BitVec.ofInt 32 a)).toNat = b ∧ t.getMemoryByte a = .ok (BitVec.ofInt 8 b) ∧
      (∀ c : Word, c ≠ BitVec.ofInt 32 a → t.mem.readByte c = s.mem.readByte c) ∧ t.x = s.x ∧
      u.de.instructionWord = s.fd.instructionWord ∧
      (BitVec.ofInt 32 a ∉ s.storeFootprint →
        (∀ k < 4, s.pc + BitVec.ofNat 32 k = BitVec.ofInt 32 a → (u.fd.instructionWord.extractLsb' (8 * k) 8).toNat = b) ∧
        (s.em.control.memReadEnable = true → s.em.control.opKind = .LW →
          ∀ k < 4, s.em.aluResult + BitVec.ofNat 32 k = BitVec.ofInt 32 a → (u.mw.loadedValue.extractLsb' (8 * k) 8).toNat = b) ∧
        (s.em.control.memReadEnable = true → s.em.control.opKind = .LBU → s.em.aluResult = BitVec.ofInt 32 a →
          u.mw.loadedValue.toNat = b) ∧
        (s.em.control.memReadEnable = true → s.em.control.opKind = .LB → s.em.aluResult = BitVec.ofInt 32 a →
          u.mw.loadedValue.toInt = if b < 128 then b else b - 256)))

/-- R125: in a state with an empty pipeline, whatever the pc, a step changes no register and no byte, and while what it fetches is no instruction the pipeline
stays empty. -/
def Obligations.EmptyPipelineChangesNothing : Prop :=
  ∀ s : State, s.Inv → s.pipelineEmpty = true →
    ∃ t, step s = .next t ∧ SameRegs s t ∧ t.mem = s.mem ∧ t.pc = s.pc + 4 ∧
      ((decode (s.mem.readWord s.pc)).control.opKind = .BUBBLE → t.pipelineEmpty = true)

/-- R125, R195: an observed end state is the first drained state of the run, and no unrecognised word was decoded on the way to it. That the state the run
starts from counts (`k` may be 0) is the model's choice, log 19. -/
def Obligations.ObservedEndIsFirstDrained : Prop :=
  ∀ (base : Word) (n fuel : Nat) (s t : State), observe base n fuel s = .drained t →
    ∃ k, k ≤ fuel ∧ runSteps k s = .next t ∧ t.drained base n = true ∧ t.illegalSeen = false ∧
      ∀ j u, j < k → runSteps j s = .next u → u.drained base n = false ∧ u.illegalSeen = false

/-- R195: stepping never ends in a fault; a run that set `illegalSeen` is refused, and never final. -/
def Obligations.ObserveNeverFaults : Prop :=
  ∀ (base : Word) (n fuel : Nat) (s : State) (f : Fault), observe base n fuel s ≠ .hostFault f ∧
    (s.illegalSeen = true → observe base n fuel s = .refused)

-- The Encoder (30_encoding.md).

/-- R60, R63, R83, R86, R102: a line that the Encoder accepts stands for one well-formed instruction, the one that it spells; its word is the encoding of
that instruction, and Decode reads the instruction back. -/
def Obligations.EncoderWordsDecode : Prop :=
  ∀ (pi : ParsedInstruction) (sym : SymbolTable),
    (∀ w, encodeParsed pi sym = .ok w → ∃ i, assemble pi sym = .ok i ∧ encode i = w) ∧
    ∀ i, assemble pi sym = .ok i →
      Reference.Spells pi sym i ∧ i.wellFormed = true ∧ i ≠ .bubble ∧ encodeParsed pi sym = .ok (encode i) ∧
        decodeWord (encode i) = .ok i ∧ (decode (encode i)).unrecognised = false

/-- R61: a program encodes to one word per instruction, in order, or fails with the error of its first failing instruction. -/
def Obligations.ProgramEncodingAllOrNothing : Prop :=
  ∀ (sym : SymbolTable) (program : List ParsedInstruction),
    (∀ words, encodeProgram sym program = .ok words →
      words.map (fun e => e.1) = program.map (fun pi => pi.address) ∧
        program.map (fun pi => encodeParsed pi sym) = words.map (fun e => .ok e.2)) ∧
    (∀ e, encodeProgram sym program = .error e →
      ∃ before pi after, program = before ++ pi :: after ∧ (∀ q ∈ before, ∃ w, encodeParsed q sym = .ok w) ∧
        encodeParsed pi sym = .error e) ∧
    (∀ p e, encodeProgram sym program = .error e → boot p sym program = .error e)

/-- R85, R86: the order of the checks: mnemonic, then operand count, then the registers left to right, whatever stands after them; the error carries the
source line (R84). -/
def Obligations.EncoderCheckOrder : Prop :=
  ∀ (pi : ParsedInstruction) (sym : SymbolTable),
    (pi.mnemonic ∉ Reference.mnemonics.map (fun m => m.1) → encodeParsed pi sym = .error ⟨.E_MNEMONIC, none, pi.originalText⟩) ∧
    (∀ m ∈ Reference.mnemonics, pi.mnemonic = m.1 → pi.operands.length ∉ m.2 →
      encodeParsed pi sym = .error ⟨.E_ARITY, none, pi.originalText⟩) ∧
    (∀ a b c, pi.operands = [a, b, c] →
      pi.mnemonic ∈ Reference.registerLines.map (fun l => l.1) ++ Reference.immediateLines.map (fun l => l.mnemonic) ++
        Reference.branchLines.map (fun l => l.1) →
      (parseRegister (trimText a) = none → encodeParsed pi sym = .error ⟨.E_REGISTER, some (trimText a), pi.originalText⟩) ∧
      (parseRegister (trimText a) ≠ none → parseRegister (trimText b) = none →
        encodeParsed pi sym = .error ⟨.E_REGISTER, some (trimText b), pi.originalText⟩)) ∧
    (∀ l ∈ Reference.registerLines, ∀ a b c, pi.mnemonic = l.1 → pi.operands = [a, b, c] →
      parseRegister (trimText a) ≠ none → parseRegister (trimText b) ≠ none → parseRegister (trimText c) = none →
      encodeParsed pi sym = .error ⟨.E_REGISTER, some (trimText c), pi.originalText⟩) ∧
    (∀ a b, pi.mnemonic = "jal".toList → pi.operands = [a, b] → parseRegister (trimText a) = none →
      encodeParsed pi sym = .error ⟨.E_REGISTER, some (trimText a), pi.originalText⟩)

/-- R82, R83: the literal of every line of two registers and a literal, once its registers have passed: E_IMM_SYNTAX if it is none, E_RANGE outside the
range of that mnemonic, else the word of its value. `immediateOperand` does this in every range that fits 32 bits. -/
def Obligations.ImmediateRangeCheck : Prop :=
  (∀ (pi : ParsedInstruction) (sym : SymbolTable), ∀ l ∈ Reference.immediateLines, ∀ a b c r rs1,
    pi.mnemonic = l.mnemonic → pi.operands = [a, b, c] → parseRegister (trimText a) = some r → parseRegister (trimText b) = some rs1 →
    encodeParsed pi sym = Reference.literalOutcome l r rs1 pi (trimText c)) ∧
  ∀ (lo hi : Int) (t : Text), -2147483648 ≤ lo → hi ≤ 2147483647 →
    (parseLiteral t = none → immediateOperand lo hi t = .error ⟨.E_IMM_SYNTAX, some t⟩) ∧
    (∀ v, parseLiteral t = some v → ¬(lo ≤ v ∧ v ≤ hi) → immediateOperand lo hi t = .error ⟨.E_RANGE, some t⟩) ∧
    (∀ v, parseLiteral t = some v → lo ≤ v → v ≤ hi → ∃ w, immediateOperand lo hi t = .ok w ∧ w.toInt = v)

/-- R80: the offset encoded for a label is its address minus the instruction's, for every branch and for `jal`. -/
def Obligations.LabelOffsetIsDifference : Prop :=
  ∀ (pi : ParsedInstruction) (sym : SymbolTable) (w target : Word),
    encodeParsed pi sym = .ok w →
    (∀ k a b c, lookupText pi.mnemonic mnemonicTable = some (.core k) → formatOf k = some .branch → pi.operands = [a, b, c] →
      lookupText (trimText c) sym = some target → (immB w).toInt = (target.toNat : Int) - (pi.address.toNat : Int)) ∧
    (∀ a b, lookupText pi.mnemonic mnemonicTable = some (.core .JAL) → (pi.operands = [a, b] ∨ pi.operands = [b]) →
      lookupText (trimText b) sym = some target → (immJ w).toInt = (target.toNat : Int) - (pi.address.toNat : Int))

/-- R80: a target is a label, then a literal, else E_SYMBOL; its offset is refused if odd, else if out of range, each with its own error, and passes
otherwise, in ranges that fit 32 bits as all of R83 do. So it is at `encodeParsed` for every branch, in [-4096, 4094], and for both forms of `jal`, in
[-1048576, 1048574], once their registers have passed. -/
def Obligations.TargetChecks : Prop :=
  (∀ (pi : ParsedInstruction) (sym : SymbolTable),
    (∀ l ∈ Reference.branchLines, ∀ a b c rs1 rs2, pi.mnemonic = l.1 → pi.operands = [a, b, c] →
      parseRegister (trimText a) = some rs1 → parseRegister (trimText b) = some rs2 →
      encodeParsed pi sym = Reference.targetOutcome (-4096) 4094 (l.2 rs1 rs2) pi sym (trimText c)) ∧
    (∀ a b rd, pi.mnemonic = "jal".toList → pi.operands = [a, b] → parseRegister (trimText a) = some rd →
      encodeParsed pi sym = Reference.targetOutcome (-1048576) 1048574 (.jal rd) pi sym (trimText b)) ∧
    (∀ a, pi.mnemonic = "jal".toList → pi.operands = [a] →
      encodeParsed pi sym = Reference.targetOutcome (-1048576) 1048574 (.jal 1) pi sym (trimText a))) ∧
  ∀ (lo hi : Int) (address : Word) (sym : SymbolTable) (t : Text), -2147483648 ≤ lo → hi ≤ 2147483647 →
    (lookupText t sym = none → parseLiteral t = none → targetOperand lo hi address sym t = .error ⟨.E_SYMBOL, some t⟩) ∧
    (∀ v, targetOffset address sym t = some v → v % 2 = 1 → targetOperand lo hi address sym t = .error ⟨.E_OFFSET_ALIGN, some t⟩) ∧
    (∀ v, targetOffset address sym t = some v → v % 2 = 0 → ¬(lo ≤ v ∧ v ≤ hi) →
      targetOperand lo hi address sym t = .error ⟨.E_RANGE, some t⟩) ∧
    (∀ v, targetOffset address sym t = some v → v % 2 = 0 → lo ≤ v → v ≤ hi →
      ∃ w, targetOperand lo hi address sym t = .ok w ∧ w.toInt = v) ∧
    (∀ a, lookupText t sym = some a → targetOffset address sym t = some ((a.toNat : Int) - (address.toNat : Int))) ∧
    (∀ v, lookupText t sym = none → parseLiteral t = some v → targetOffset address sym t = some v)

/-- R87 to R94: every pseudo-instruction encodes as the instruction it expands to. -/
def Obligations.PseudoInstructionsExpand : Prop :=
  ∀ (address : Word) (sym : SymbolTable) (line a b : Text),
    encodeParsed ⟨address, "li".toList, [a, b], line⟩ sym = encodeParsed ⟨address, "addi".toList, [a, "x0".toList, b], line⟩ sym ∧
    encodeParsed ⟨address, "mv".toList, [a, b], line⟩ sym = encodeParsed ⟨address, "addi".toList, [a, b, "0".toList], line⟩ sym ∧
    encodeParsed ⟨address, "nop".toList, [], line⟩ sym = .ok 0x00000013 ∧
    encodeParsed ⟨address, "j".toList, [a], line⟩ sym = encodeParsed ⟨address, "jal".toList, ["x0".toList, a], line⟩ sym ∧
    encodeParsed ⟨address, "jal".toList, [a], line⟩ sym = encodeParsed ⟨address, "jal".toList, ["x1".toList, a], line⟩ sym ∧
    encodeParsed ⟨address, "ret".toList, [], line⟩ sym = .ok 0x00008067 ∧
    encodeParsed ⟨address, "beqz".toList, [a, b], line⟩ sym =
      encodeParsed ⟨address, "beq".toList, [a, "x0".toList, b], line⟩ sym ∧
    encodeParsed ⟨address, "bnez".toList, [a, b], line⟩ sym = encodeParsed ⟨address, "bne".toList, [a, "x0".toList, b], line⟩ sym

/-- R104: the symbol table is built exactly if no label is defined twice. -/
def Obligations.DuplicateLabelIsFatal : Prop :=
  ∀ labels : List (Text × Word),
    ((labels.map (fun e => e.1)).Nodup → buildSymbols labels = .ok labels) ∧
    (¬(labels.map (fun e => e.1)).Nodup → ∃ label, buildSymbols labels = .error ⟨.E_DUP_LABEL, some label⟩)

/-- R62, R81, R82: the spellings. A register text is accepted exactly if it is a name of 10_state.md R23, a literal text exactly if it is a literal of R82,
each with the register or the number it denotes; trimming removes the spaces and tabs at both ends and nothing else. -/
def Obligations.OperandSpellings : Prop :=
  ∀ t : Text,
    (∀ r, parseRegister t = some r ↔ ∃ row ∈ Reference.registerNames, row.1 = r ∧ t ∈ row.2) ∧
    (∀ v, parseLiteral t = some v ↔ Reference.IsLiteral t v) ∧
    (∃ before after, t = before ++ trimText t ++ after ∧ ∀ c ∈ before ++ after, c = ' ' ∨ c = '\t') ∧
    (∀ c, (trimText t).head? = some c ∨ (trimText t).getLast? = some c → c ≠ ' ' ∧ c ≠ '\t')
end

