-- ==== Sys2Proof/Laws/Decode.lean ====
section
/-! SUPPORT. Words as numbers: the value of a concatenation and of a field, the value of each packed format, and the fields of each packed word. -/

namespace Sys2Proof

theorem toNat_append_eq {n m : Nat} (x : BitVec n) (y : BitVec m) : (x ++ y).toNat = x.toNat * 2 ^ m + y.toNat := by
  rw [BitVec.toNat_append, Nat.shiftLeft_eq, Nat.mul_comm, ← Nat.two_pow_add_eq_or_of_lt y.isLt]

theorem toNat_field {n : Nat} (x : BitVec n) (s l : Nat) : (x.extractLsb' s l).toNat = x.toNat / 2 ^ s % 2 ^ l := by
  simp [BitVec.extractLsb'_toNat, Nat.shiftRight_eq_div_pow]

/-- The signed value of a bit vector, by its top bit. -/
theorem toInt_by_sign {n : Nat} (x : BitVec n) :
    x.toInt = if 2 * x.toNat < 2 ^ n then (x.toNat : Int) else (x.toNat : Int) - (2 ^ n : Nat) :=
  BitVec.toInt_eq_toNat_cond x

-- The value of each format.

theorem packR_toNat (f7 rs2 rs1 f3 rd op) : (packR f7 rs2 rs1 f3 rd op).toNat =
    f7.toNat * 2 ^ 25 + rs2.toNat * 2 ^ 20 + rs1.toNat * 2 ^ 15 + f3.toNat * 2 ^ 12 + rd.toNat * 2 ^ 7 + op.toNat := by
  unfold packR
  show BitVec.toNat (w := 7 + 5 + 5 + 3 + 5 + 7) _ = _
  simp only [toNat_append_eq]
  omega

theorem packI_toNat (v rs1 f3 rd op) : (packI v rs1 f3 rd op).toNat =
    v.toNat % 2 ^ 12 * 2 ^ 20 + rs1.toNat * 2 ^ 15 + f3.toNat * 2 ^ 12 + rd.toNat * 2 ^ 7 + op.toNat := by
  unfold packI
  show BitVec.toNat (w := 12 + 5 + 3 + 5 + 7) _ = _
  simp only [toNat_append_eq, toNat_field]
  omega

theorem packS_toNat (v rs2 rs1 f3) : (packS v rs2 rs1 f3).toNat =
    v.toNat / 2 ^ 5 % 2 ^ 7 * 2 ^ 25 + rs2.toNat * 2 ^ 20 + rs1.toNat * 2 ^ 15 + f3.toNat * 2 ^ 12 + v.toNat % 2 ^ 5 * 2 ^ 7 +
      0b0100011 := by
  unfold packS
  show BitVec.toNat (w := 7 + 5 + 5 + 3 + 5 + 7) _ = _
  simp only [toNat_append_eq, toNat_field, show (0b0100011#7).toNat = 0b0100011 from rfl]
  omega

theorem packB_toNat (v rs2 rs1 f3) : (packB v rs2 rs1 f3).toNat =
    v.toNat / 2 ^ 12 % 2 * 2 ^ 31 + v.toNat / 2 ^ 5 % 2 ^ 6 * 2 ^ 25 + rs2.toNat * 2 ^ 20 + rs1.toNat * 2 ^ 15 + f3.toNat * 2 ^ 12 +
      v.toNat / 2 % 2 ^ 4 * 2 ^ 8 + v.toNat / 2 ^ 11 % 2 * 2 ^ 7 + 0b1100011 := by
  unfold packB
  show BitVec.toNat (w := 1 + 6 + 5 + 5 + 3 + 4 + 1 + 7) _ = _
  simp only [toNat_append_eq, toNat_field, show (0b1100011#7).toNat = 0b1100011 from rfl]
  omega

theorem packJ_toNat (v rd) : (packJ v rd).toNat =
    v.toNat / 2 ^ 20 % 2 * 2 ^ 31 + v.toNat / 2 % 2 ^ 10 * 2 ^ 21 + v.toNat / 2 ^ 11 % 2 * 2 ^ 20 + v.toNat / 2 ^ 12 % 2 ^ 8 * 2 ^ 12 +
      rd.toNat * 2 ^ 7 + 0b1101111 := by
  unfold packJ
  show BitVec.toNat (w := 1 + 10 + 1 + 8 + 5 + 7) _ = _
  simp only [toNat_append_eq, toNat_field, show (0b1101111#7).toNat = 0b1101111 from rfl]
  omega

-- The fields of each format.

@[simp] theorem opcodeOf_packR (f7 rs2 rs1 f3 rd op) : opcodeOf (packR f7 rs2 rs1 f3 rd op) = op := by
  apply BitVec.eq_of_toNat_eq
  rw [opcodeOf, toNat_field, packR_toNat]
  omega

@[simp] theorem rdOf_packR (f7 rs2 rs1 f3 rd op) : rdOf (packR f7 rs2 rs1 f3 rd op) = rd := by
  apply BitVec.eq_of_toNat_eq
  rw [rdOf, toNat_field, packR_toNat]
  omega

@[simp] theorem funct3Of_packR (f7 rs2 rs1 f3 rd op) : funct3Of (packR f7 rs2 rs1 f3 rd op) = f3 := by
  apply BitVec.eq_of_toNat_eq
  rw [funct3Of, toNat_field, packR_toNat]
  omega

@[simp] theorem rs1Of_packR (f7 rs2 rs1 f3 rd op) : rs1Of (packR f7 rs2 rs1 f3 rd op) = rs1 := by
  apply BitVec.eq_of_toNat_eq
  rw [rs1Of, toNat_field, packR_toNat]
  omega

@[simp] theorem rs2Of_packR (f7 rs2 rs1 f3 rd op) : rs2Of (packR f7 rs2 rs1 f3 rd op) = rs2 := by
  apply BitVec.eq_of_toNat_eq
  rw [rs2Of, toNat_field, packR_toNat]
  omega

@[simp] theorem funct7Of_packR (f7 rs2 rs1 f3 rd op) : funct7Of (packR f7 rs2 rs1 f3 rd op) = f7 := by
  apply BitVec.eq_of_toNat_eq
  rw [funct7Of, toNat_field, packR_toNat]
  omega

@[simp] theorem opcodeOf_packI (v rs1 f3 rd op) : opcodeOf (packI v rs1 f3 rd op) = op := by
  apply BitVec.eq_of_toNat_eq
  rw [opcodeOf, toNat_field, packI_toNat]
  have h := Nat.mod_lt v.toNat (show 2 ^ 12 > 0 by decide)
  generalize v.toNat % 2 ^ 12 = a at h ⊢
  omega

@[simp] theorem rdOf_packI (v rs1 f3 rd op) : rdOf (packI v rs1 f3 rd op) = rd := by
  apply BitVec.eq_of_toNat_eq
  rw [rdOf, toNat_field, packI_toNat]
  have h := Nat.mod_lt v.toNat (show 2 ^ 12 > 0 by decide)
  generalize v.toNat % 2 ^ 12 = a at h ⊢
  omega

@[simp] theorem funct3Of_packI (v rs1 f3 rd op) : funct3Of (packI v rs1 f3 rd op) = f3 := by
  apply BitVec.eq_of_toNat_eq
  rw [funct3Of, toNat_field, packI_toNat]
  have h := Nat.mod_lt v.toNat (show 2 ^ 12 > 0 by decide)
  generalize v.toNat % 2 ^ 12 = a at h ⊢
  omega

@[simp] theorem rs1Of_packI (v rs1 f3 rd op) : rs1Of (packI v rs1 f3 rd op) = rs1 := by
  apply BitVec.eq_of_toNat_eq
  rw [rs1Of, toNat_field, packI_toNat]
  have h := Nat.mod_lt v.toNat (show 2 ^ 12 > 0 by decide)
  generalize v.toNat % 2 ^ 12 = a at h ⊢
  omega

@[simp] theorem opcodeOf_packS (v rs2 rs1 f3) : opcodeOf (packS v rs2 rs1 f3) = 0b0100011#7 := by
  apply BitVec.eq_of_toNat_eq
  rw [opcodeOf, toNat_field, packS_toNat]
  simp only [show (0b0100011#7).toNat = 0b0100011 from rfl]
  have h := Nat.mod_lt (v.toNat / 2 ^ 5) (show 2 ^ 7 > 0 by decide)
  have g := Nat.mod_lt v.toNat (show 2 ^ 5 > 0 by decide)
  generalize v.toNat / 2 ^ 5 % 2 ^ 7 = a at h ⊢
  generalize v.toNat % 2 ^ 5 = b at g ⊢
  omega

@[simp] theorem funct3Of_packS (v rs2 rs1 f3) : funct3Of (packS v rs2 rs1 f3) = f3 := by
  apply BitVec.eq_of_toNat_eq
  rw [funct3Of, toNat_field, packS_toNat]
  have h := Nat.mod_lt (v.toNat / 2 ^ 5) (show 2 ^ 7 > 0 by decide)
  have g := Nat.mod_lt v.toNat (show 2 ^ 5 > 0 by decide)
  generalize v.toNat / 2 ^ 5 % 2 ^ 7 = a at h ⊢
  generalize v.toNat % 2 ^ 5 = b at g ⊢
  omega

@[simp] theorem rs1Of_packS (v rs2 rs1 f3) : rs1Of (packS v rs2 rs1 f3) = rs1 := by
  apply BitVec.eq_of_toNat_eq
  rw [rs1Of, toNat_field, packS_toNat]
  have h := Nat.mod_lt (v.toNat / 2 ^ 5) (show 2 ^ 7 > 0 by decide)
  have g := Nat.mod_lt v.toNat (show 2 ^ 5 > 0 by decide)
  generalize v.toNat / 2 ^ 5 % 2 ^ 7 = a at h ⊢
  generalize v.toNat % 2 ^ 5 = b at g ⊢
  omega

@[simp] theorem rs2Of_packS (v rs2 rs1 f3) : rs2Of (packS v rs2 rs1 f3) = rs2 := by
  apply BitVec.eq_of_toNat_eq
  rw [rs2Of, toNat_field, packS_toNat]
  have h := Nat.mod_lt (v.toNat / 2 ^ 5) (show 2 ^ 7 > 0 by decide)
  have g := Nat.mod_lt v.toNat (show 2 ^ 5 > 0 by decide)
  generalize v.toNat / 2 ^ 5 % 2 ^ 7 = a at h ⊢
  generalize v.toNat % 2 ^ 5 = b at g ⊢
  omega

@[simp] theorem opcodeOf_packB (v rs2 rs1 f3) : opcodeOf (packB v rs2 rs1 f3) = 0b1100011#7 := by
  apply BitVec.eq_of_toNat_eq
  rw [opcodeOf, toNat_field, packB_toNat]
  simp only [show (0b1100011#7).toNat = 0b1100011 from rfl]
  have h := Nat.mod_lt (v.toNat / 2 ^ 12) (show 2 > 0 by decide)
  have g := Nat.mod_lt (v.toNat / 2 ^ 5) (show 2 ^ 6 > 0 by decide)
  have j := Nat.mod_lt (v.toNat / 2) (show 2 ^ 4 > 0 by decide)
  have k := Nat.mod_lt (v.toNat / 2 ^ 11) (show 2 > 0 by decide)
  generalize v.toNat / 2 ^ 12 % 2 = a at h ⊢
  generalize v.toNat / 2 ^ 5 % 2 ^ 6 = b at g ⊢
  generalize v.toNat / 2 % 2 ^ 4 = c at j ⊢
  generalize v.toNat / 2 ^ 11 % 2 = d at k ⊢
  omega

@[simp] theorem funct3Of_packB (v rs2 rs1 f3) : funct3Of (packB v rs2 rs1 f3) = f3 := by
  apply BitVec.eq_of_toNat_eq
  rw [funct3Of, toNat_field, packB_toNat]
  have h := Nat.mod_lt (v.toNat / 2 ^ 12) (show 2 > 0 by decide)
  have g := Nat.mod_lt (v.toNat / 2 ^ 5) (show 2 ^ 6 > 0 by decide)
  have j := Nat.mod_lt (v.toNat / 2) (show 2 ^ 4 > 0 by decide)
  have k := Nat.mod_lt (v.toNat / 2 ^ 11) (show 2 > 0 by decide)
  generalize v.toNat / 2 ^ 12 % 2 = a at h ⊢
  generalize v.toNat / 2 ^ 5 % 2 ^ 6 = b at g ⊢
  generalize v.toNat / 2 % 2 ^ 4 = c at j ⊢
  generalize v.toNat / 2 ^ 11 % 2 = d at k ⊢
  omega

@[simp] theorem rs1Of_packB (v rs2 rs1 f3) : rs1Of (packB v rs2 rs1 f3) = rs1 := by
  apply BitVec.eq_of_toNat_eq
  rw [rs1Of, toNat_field, packB_toNat]
  have h := Nat.mod_lt (v.toNat / 2 ^ 12) (show 2 > 0 by decide)
  have g := Nat.mod_lt (v.toNat / 2 ^ 5) (show 2 ^ 6 > 0 by decide)
  have j := Nat.mod_lt (v.toNat / 2) (show 2 ^ 4 > 0 by decide)
  have k := Nat.mod_lt (v.toNat / 2 ^ 11) (show 2 > 0 by decide)
  generalize v.toNat / 2 ^ 12 % 2 = a at h ⊢
  generalize v.toNat / 2 ^ 5 % 2 ^ 6 = b at g ⊢
  generalize v.toNat / 2 % 2 ^ 4 = c at j ⊢
  generalize v.toNat / 2 ^ 11 % 2 = d at k ⊢
  omega

@[simp] theorem rs2Of_packB (v rs2 rs1 f3) : rs2Of (packB v rs2 rs1 f3) = rs2 := by
  apply BitVec.eq_of_toNat_eq
  rw [rs2Of, toNat_field, packB_toNat]
  have h := Nat.mod_lt (v.toNat / 2 ^ 12) (show 2 > 0 by decide)
  have g := Nat.mod_lt (v.toNat / 2 ^ 5) (show 2 ^ 6 > 0 by decide)
  have j := Nat.mod_lt (v.toNat / 2) (show 2 ^ 4 > 0 by decide)
  have k := Nat.mod_lt (v.toNat / 2 ^ 11) (show 2 > 0 by decide)
  generalize v.toNat / 2 ^ 12 % 2 = a at h ⊢
  generalize v.toNat / 2 ^ 5 % 2 ^ 6 = b at g ⊢
  generalize v.toNat / 2 % 2 ^ 4 = c at j ⊢
  generalize v.toNat / 2 ^ 11 % 2 = d at k ⊢
  omega

@[simp] theorem opcodeOf_packJ (v rd) : opcodeOf (packJ v rd) = 0b1101111#7 := by
  apply BitVec.eq_of_toNat_eq
  rw [opcodeOf, toNat_field, packJ_toNat]
  simp only [show (0b1101111#7).toNat = 0b1101111 from rfl]
  omega

@[simp] theorem rdOf_packJ (v rd) : rdOf (packJ v rd) = rd := by
  apply BitVec.eq_of_toNat_eq
  rw [rdOf, toNat_field, packJ_toNat]
  omega

/-- A word whose opcode field is not 0 is not the all-zero word. -/
theorem ne_zero_of_opcode {w : Word} (h : opcodeOf w ≠ 0) : w ≠ 0 := by
  rintro rfl
  exact h (by decide)

/-- The kind of a word with a nonzero opcode field is that of its fields. -/
theorem kindOfWord_of_opcode {w : Word} (h : opcodeOf w ≠ 0) :
    kindOfWord w = kindOfFields (opcodeOf w) (funct3Of w) (funct7Of w) := by
  rw [kindOfWord, if_neg (ne_zero_of_opcode h)]

theorem kindOfWord_packR (f7 rs2 rs1 f3 rd op) (h : op ≠ 0) : kindOfWord (packR f7 rs2 rs1 f3 rd op) = kindOfFields op f3 f7 := by
  rw [kindOfWord_of_opcode (by simpa using h)]
  simp only [opcodeOf_packR, funct3Of_packR, funct7Of_packR]

theorem kindOfWord_packI (v rs1 f3 rd op) (h : op ≠ 0) :
    kindOfWord (packI v rs1 f3 rd op) = kindOfFields op f3 (funct7Of (packI v rs1 f3 rd op)) := by
  rw [kindOfWord_of_opcode (by simpa using h)]
  simp only [opcodeOf_packI, funct3Of_packI]

theorem kindOfWord_packS (v rs2 rs1 f3) : kindOfWord (packS v rs2 rs1 f3) = kindStore f3 := by
  rw [kindOfWord_of_opcode (by simp)]
  simp only [opcodeOf_packS, funct3Of_packS]
  rfl

theorem kindOfWord_packB (v rs2 rs1 f3) : kindOfWord (packB v rs2 rs1 f3) = kindBranch f3 := by
  rw [kindOfWord_of_opcode (by simp)]
  simp only [opcodeOf_packB, funct3Of_packB]
  rfl

theorem kindOfWord_packJ (v rd) : kindOfWord (packJ v rd) = .ok .JAL := by
  rw [kindOfWord_of_opcode (by simp)]
  simp only [opcodeOf_packJ]
  rfl

-- Decode by what kindOfWord answers.

theorem decodeWord_ok {w : Word} {k : OpKind} (h : kindOfWord w = .ok k) :
    decodeWord w = .ok (Instr.build k (rdOf w) (rs1Of w) (rs2Of w) (immediateOf k w)) := by
  simp [decodeWord, h]

theorem decode_ok {w : Word} {k : OpKind} (h : kindOfWord w = .ok k) :
    decode w = { control := controlOf k (rdOf w), immediate := immediateOf k w, rs1 := rs1Of w, rs2 := rs2Of w,
                 unrecognised := false } := by
  simp [decode, h]

theorem decode_error {w : Word} {u : Unrecognised} (h : kindOfWord w = .error u) :
    decode w = { control := ControlFields.bubble, immediate := 0, rs1 := rs1Of w, rs2 := rs2Of w, unrecognised := true } := by
  simp [decode, h]

@[simp] theorem decode_rs1 (w : Word) : (decode w).rs1 = rs1Of w := by
  unfold decode
  split <;> rfl

@[simp] theorem decode_rs2 (w : Word) : (decode w).rs2 = rs2Of w := by
  unfold decode
  split <;> rfl

@[simp] theorem controlOf_opKind (k : OpKind) (rd : RegIdx) : (controlOf k rd).opKind = k := by cases k <;> rfl

@[simp] theorem build_kind (k : OpKind) (rd rs1 rs2 : RegIdx) (imm : Word) : (Instr.build k rd rs1 rs2 imm).kind = k := by
  cases k <;> rfl

@[simp] theorem decode_zero_control : (decode 0).control = ControlFields.bubble := by decide

@[simp] theorem decode_zero_immediate : (decode 0).immediate = 0 := by decide

@[simp] theorem decode_zero_unrecognised : (decode 0).unrecognised = false := by decide

-- Words and bytes.

theorem wordOfBytes_toNat (b0 b1 b2 b3 : Byte) :
    (wordOfBytes b0 b1 b2 b3).toNat = b0.toNat + 256 * b1.toNat + 65536 * b2.toNat + 16777216 * b3.toNat := by
  unfold wordOfBytes
  show BitVec.toNat (w := 8 + 8 + 8 + 8) _ = _
  simp only [toNat_append_eq]
  omega

/-- A word is the word of its bytes. -/
theorem wordOfBytes_extract (w : Word) :
    wordOfBytes (w.extractLsb' 0 8) (w.extractLsb' 8 8) (w.extractLsb' 16 8) (w.extractLsb' 24 8) = w := by
  apply BitVec.eq_of_toNat_eq
  rw [wordOfBytes_toNat]
  simp only [toNat_field]
  omega

end Sys2Proof
end

