-- ==== Sys2Proof/Laws/Memory.lean ====
section
/-! SUPPORT. Everything that reading and writing memory can do: a read after a write to the same place gives the value written, a write leaves every
other place alone, and every operation keeps the canonical form (20_memory.md R40 to R42). -/

namespace Sys2Proof.Machine

/-- A lower bound may be lowered. -/
theorem wfFrom_mono {m : Memory} {lo lo' : Nat} (h : lo' ≤ lo) (hw : Memory.wfFrom lo m = true) : Memory.wfFrom lo' m = true := by
  cases m with
  | nil => rfl
  | cons e rest =>
    simp only [Memory.wfFrom, Bool.and_eq_true, decide_eq_true_eq] at hw ⊢
    exact ⟨⟨⟨by omega, hw.1.1.2⟩, hw.1.2⟩, hw.2⟩

/-- Below its first address a canonical memory lists nothing. -/
theorem lookup_below {m : Memory} {lo a : Nat} (hw : Memory.wfFrom lo m = true) (h : a < lo) : Memory.lookup m a = unlistedByte := by
  induction m generalizing lo with
  | nil => rfl
  | cons e rest ih =>
    simp only [Memory.wfFrom, Bool.and_eq_true, decide_eq_true_eq] at hw
    rw [Memory.lookup, if_neg (by omega)]
    exact ih hw.2 (by omega)

/-- A write leaves every other address alone. -/
theorem lookup_update_other (m : Memory) (a c : Nat) (b : Byte) (h : c ≠ a) :
    Memory.lookup (Memory.update m a b) c = Memory.lookup m c := by
  induction m with
  | nil =>
    unfold Memory.update
    split
    · rfl
    · simp [Memory.lookup, Ne.symm h]
  | cons e rest ih =>
    unfold Memory.update
    split
    · split
      · rfl
      · rw [Memory.lookup, if_neg (Ne.symm h)]
    · split
      · rename_i he
        have hk : e.1 ≠ c := fun hc => h (by rw [← hc, ← he])
        split
        · rw [Memory.lookup, if_neg hk]
        · rw [Memory.lookup, if_neg (Ne.symm h), Memory.lookup, if_neg hk]
      · simp only [Memory.lookup, ih]

/-- A read after a write to the same address gives the byte written. -/
theorem lookup_update_same {m : Memory} {lo : Nat} (a : Nat) (b : Byte) (hw : Memory.wfFrom lo m = true) :
    Memory.lookup (Memory.update m a b) a = b := by
  induction m generalizing lo with
  | nil =>
    unfold Memory.update
    split
    · rename_i h
      exact h.symm
    · rw [Memory.lookup, if_pos rfl]
  | cons e rest ih =>
    simp only [Memory.wfFrom, Bool.and_eq_true, decide_eq_true_eq] at hw
    unfold Memory.update
    split
    · rename_i ha
      split
      · rename_i h
        rw [Memory.lookup, if_neg (by omega), lookup_below hw.2 (by omega), h]
      · rw [Memory.lookup, if_pos rfl]
    · split
      · rename_i he
        split
        · rename_i h
          rw [lookup_below hw.2 (by omega), h]
        · rw [Memory.lookup, if_pos rfl]
      · rename_i he
        rw [Memory.lookup, if_neg (fun h => he h.symm)]
        exact ih hw.2

/-- A write inside the address space keeps the canonical form. -/
theorem wfFrom_update {m : Memory} {lo a : Nat} (b : Byte) (hw : Memory.wfFrom lo m = true) (hlo : lo ≤ a) (ha : a < 2 ^ 32) :
    Memory.wfFrom lo (Memory.update m a b) = true := by
  induction m generalizing lo with
  | nil =>
    unfold Memory.update
    split
    · rfl
    · rename_i h
      simp only [Memory.wfFrom, Bool.and_eq_true, decide_eq_true_eq, bne_iff_ne]
      exact ⟨⟨⟨hlo, ha⟩, h⟩, trivial⟩
  | cons e rest ih =>
    have hw' := hw
    simp only [Memory.wfFrom, Bool.and_eq_true, decide_eq_true_eq, bne_iff_ne] at hw
    unfold Memory.update
    split
    · split
      · exact hw'
      · rename_i _ h
        simp only [Memory.wfFrom, Bool.and_eq_true, decide_eq_true_eq, bne_iff_ne]
        exact ⟨⟨⟨hlo, ha⟩, h⟩, ⟨⟨⟨by omega, hw.1.1.2⟩, hw.1.2⟩, hw.2⟩⟩
    · split
      · split
        · exact wfFrom_mono (by omega) hw.2
        · rename_i he h
          simp only [Memory.wfFrom, Bool.and_eq_true, decide_eq_true_eq, bne_iff_ne]
          exact ⟨⟨⟨hlo, ha⟩, h⟩, by rw [he]; exact hw.2⟩
      · simp only [Memory.wfFrom, Bool.and_eq_true, decide_eq_true_eq, bne_iff_ne]
        exact ⟨hw.1, ih hw.2 (by omega)⟩

-- The same of the named operations.

theorem readByte_writeByte_same {m : Memory} (a : Word) (b : Byte) (hw : m.wf = true) : (m.writeByte a b).readByte a = b :=
  lookup_update_same a.toNat b hw

theorem readByte_writeByte_other (m : Memory) {a c : Word} (b : Byte) (h : c ≠ a) : (m.writeByte a b).readByte c = m.readByte c :=
  lookup_update_other m a.toNat c.toNat b (fun e => h (BitVec.eq_of_toNat_eq e))

theorem wf_nil : Memory.wf [] = true := rfl

theorem wf_writeByte {m : Memory} (a : Word) (b : Byte) (hw : m.wf = true) : (m.writeByte a b).wf = true :=
  wfFrom_update b hw (Nat.zero_le _) a.isLt

theorem wf_storeByte {m : Memory} (a v : Word) (hw : m.wf = true) : (m.storeByte a v).wf = true := wf_writeByte _ _ hw

theorem wf_storeWord {m : Memory} (a v : Word) (hw : m.wf = true) : (m.storeWord a v).wf = true :=
  wf_writeByte _ _ (wf_writeByte _ _ (wf_writeByte _ _ (wf_writeByte _ _ hw)))

theorem wf_storeOf {m : Memory} (k : OpKind) (a v : Word) (hw : m.wf = true) : (storeOf k m a v).wf = true := by
  unfold storeOf
  split
  · exact wf_storeWord _ _ hw
  · exact wf_storeByte _ _ hw
  · exact hw

theorem wf_memoryAfter {m : Memory} (l : ExecuteMemoryLatch) (hw : m.wf = true) : (l.memoryAfter m).wf = true := by
  unfold ExecuteMemoryLatch.memoryAfter
  split
  · exact wf_storeOf _ _ _ hw
  · exact hw

/-- A latch whose control record stores nothing leaves memory alone. -/
theorem memoryAfter_disabled (l : ExecuteMemoryLatch) (m : Memory) (h : l.control.memWriteEnable = false) : l.memoryAfter m = m := by
  simp [ExecuteMemoryLatch.memoryAfter, h]

-- The four addresses of a word are different, also across the top of the address space.

theorem addr_ne_add (a k : Word) (h : k ≠ 0) : a ≠ a + k := by
  intro e
  exact h (by simpa using e.symm)

theorem add_ne_add (a j k : Word) (h : j ≠ k) : a + j ≠ a + k := fun e => h (by simpa using e)

end Sys2Proof.Machine
end

