-- ==== Sys2Proof/Laws/State.lean ====
section
/-! SUPPORT. Each field of the state after each update, true by definition, so that no later proof unfolds a record update. -/

namespace Sys2Proof.Machine

-- One clock cycle.

@[simp] theorem State.cycle_pc (s : State) (r : ExecResult) : (s.cycle r).pc = nextPcOf s.pc r.redirect := rfl

@[simp] theorem State.cycle_x (s : State) (r : ExecResult) : (s.cycle r).x = s.xNext := rfl

@[simp] theorem State.cycle_mem (s : State) (r : ExecResult) : (s.cycle r).mem = s.memNext := rfl

@[simp] theorem State.cycle_fd (s : State) (r : ExecResult) : (s.cycle r).fd = fetch s.memNext s.pc := rfl

@[simp] theorem State.cycle_de (s : State) (r : ExecResult) : (s.cycle r).de = s.fd.toDE s.x := rfl

@[simp] theorem State.cycle_em (s : State) (r : ExecResult) : (s.cycle r).em = s.de.toEM r := rfl

@[simp] theorem State.cycle_mw (s : State) (r : ExecResult) : (s.cycle r).mw = s.em.toMW s.memNext := rfl

@[simp] theorem State.cycle_cycles (s : State) (r : ExecResult) : (s.cycle r).cycles = s.cycles + 1 := rfl

@[simp] theorem State.cycle_illegalSeen (s : State) (r : ExecResult) : (s.cycle r).illegalSeen = (s.illegalSeen || (decode s.fd.instructionWord).unrecognised) := rfl

-- A word placed in the Execute stage.

@[simp] theorem placeInExecute_pc (s : State) (w : Word) : (placeInExecute s w).pc = s.pc + 8 := rfl

@[simp] theorem placeInExecute_x (s : State) (w : Word) : (placeInExecute s w).x = s.x := rfl

@[simp] theorem placeInExecute_mem (s : State) (w : Word) : (placeInExecute s w).mem = s.mem.storeWord s.pc w := rfl

@[simp] theorem placeInExecute_fd (s : State) (w : Word) : (placeInExecute s w).fd = fetch (s.mem.storeWord s.pc w) (s.pc + 4) := rfl

@[simp] theorem placeInExecute_de (s : State) (w : Word) : (placeInExecute s w).de = (fetch (s.mem.storeWord s.pc w) s.pc).toDE s.x := rfl

@[simp] theorem placeInExecute_em (s : State) (w : Word) : (placeInExecute s w).em = s.em := rfl

@[simp] theorem placeInExecute_mw (s : State) (w : Word) : (placeInExecute s w).mw = s.mw := rfl

@[simp] theorem placeInExecute_cycles (s : State) (w : Word) : (placeInExecute s w).cycles = s.cycles := rfl

@[simp] theorem placeInExecute_illegalSeen (s : State) (w : Word) : (placeInExecute s w).illegalSeen = (s.illegalSeen || (decode w).unrecognised) := rfl

-- The latches that the stages make.

@[simp] theorem FetchDecodeLatch.toDE_instructionWord (l : FetchDecodeLatch) (x : Vector Word 32) : (l.toDE x).instructionWord = l.instructionWord := rfl

@[simp] theorem FetchDecodeLatch.toDE_operandA (l : FetchDecodeLatch) (x : Vector Word 32) : (l.toDE x).operandA = readReg x (decode l.instructionWord).rs1 := rfl

@[simp] theorem FetchDecodeLatch.toDE_operandB (l : FetchDecodeLatch) (x : Vector Word 32) : (l.toDE x).operandB = readReg x (decode l.instructionWord).rs2 := rfl

@[simp] theorem FetchDecodeLatch.toDE_immediate (l : FetchDecodeLatch) (x : Vector Word 32) : (l.toDE x).immediate = (decode l.instructionWord).immediate := rfl

@[simp] theorem FetchDecodeLatch.toDE_nextPc (l : FetchDecodeLatch) (x : Vector Word 32) : (l.toDE x).nextPc = l.nextPc := rfl

@[simp] theorem FetchDecodeLatch.toDE_control (l : FetchDecodeLatch) (x : Vector Word 32) : (l.toDE x).control = (decode l.instructionWord).control := rfl

@[simp] theorem DecodeExecuteLatch.toEM_instructionWord (l : DecodeExecuteLatch) (r : ExecResult) : (l.toEM r).instructionWord = l.instructionWord := rfl

@[simp] theorem DecodeExecuteLatch.toEM_aluResult (l : DecodeExecuteLatch) (r : ExecResult) : (l.toEM r).aluResult = r.aluResult := rfl

@[simp] theorem DecodeExecuteLatch.toEM_storeValue (l : DecodeExecuteLatch) (r : ExecResult) : (l.toEM r).storeValue = l.operandB := rfl

@[simp] theorem DecodeExecuteLatch.toEM_branchTaken (l : DecodeExecuteLatch) (r : ExecResult) : (l.toEM r).branchTaken = r.branchTaken := rfl

@[simp] theorem DecodeExecuteLatch.toEM_control (l : DecodeExecuteLatch) (r : ExecResult) : (l.toEM r).control = l.control := rfl

@[simp] theorem ExecuteMemoryLatch.toMW_instructionWord (l : ExecuteMemoryLatch) (m : Memory) : (l.toMW m).instructionWord = l.instructionWord := rfl

@[simp] theorem ExecuteMemoryLatch.toMW_aluResult (l : ExecuteMemoryLatch) (m : Memory) : (l.toMW m).aluResult = l.aluResult := rfl

@[simp] theorem ExecuteMemoryLatch.toMW_loadedValue (l : ExecuteMemoryLatch) (m : Memory) : (l.toMW m).loadedValue = (if l.control.memReadEnable then loadOf l.control.opKind m l.aluResult else 0) := rfl

@[simp] theorem ExecuteMemoryLatch.toMW_control (l : ExecuteMemoryLatch) (m : Memory) : (l.toMW m).control = l.control := rfl

@[simp] theorem fetch_pc (m : Memory) (pc : Word) : (fetch m pc).pc = pc := rfl

@[simp] theorem fetch_instructionWord (m : Memory) (pc : Word) : (fetch m pc).instructionWord = m.readWord pc := rfl

@[simp] theorem fetch_nextPc (m : Memory) (pc : Word) : (fetch m pc).nextPc = pc + 4 := rfl

-- The Execute results.

@[simp] theorem ExecResult.value_aluResult (v : Word) : (ExecResult.value v).aluResult = v := rfl

@[simp] theorem ExecResult.value_branchTaken (v : Word) : (ExecResult.value v).branchTaken = false := rfl

@[simp] theorem ExecResult.value_redirect (v : Word) : (ExecResult.value v).redirect = none := rfl

@[simp] theorem ExecResult.branch_aluResult (t : Word) (c : Bool) : (ExecResult.branch t c).aluResult = t := rfl

@[simp] theorem ExecResult.branch_branchTaken (t : Word) (c : Bool) : (ExecResult.branch t c).branchTaken = c := rfl

@[simp] theorem ExecResult.branch_redirect (t : Word) (c : Bool) :
    (ExecResult.branch t c).redirect = if c then some t else none := rfl

@[simp] theorem ExecResult.jump_aluResult (l t : Word) : (ExecResult.jump l t).aluResult = l := rfl

@[simp] theorem ExecResult.jump_branchTaken (l t : Word) : (ExecResult.jump l t).branchTaken = true := rfl

@[simp] theorem ExecResult.jump_redirect (l t : Word) : (ExecResult.jump l t).redirect = some t := rfl

@[simp] theorem nextPcOf_some (pc t : Word) : nextPcOf pc (some t) = t := rfl

@[simp] theorem nextPcOf_none (pc : Word) : nextPcOf pc none = pc + 4 := rfl

end Sys2Proof.Machine
end

