-- ==== Sys2Proof/Laws/Registers.lean ====
section
/-! SUPPORT. Everything that reading and writing registers can do (10_state.md R22; 40_pipeline_engine.md R112). -/

namespace Sys2Proof.Machine

/-- Register 0 reads as 0 whatever the storage holds. -/
@[simp] theorem readReg_zero (x : Vector Word 32) : readReg x 0 = 0 := rfl

/-- Reading a register after a write: the value written, unless the write was to register 0, and every other register as before. -/
theorem readReg_writeReg (x : Vector Word 32) (i r : RegIdx) (v : Word) :
    readReg (writeReg x i v) r = if r = i ∧ r ≠ 0 then v else readReg x r := by
  unfold readReg writeReg
  by_cases hi : i = 0
  · subst hi
    by_cases hr : r = 0
    · rw [if_pos hr, if_neg (fun e => e.2 hr), if_pos hr]
    · rw [if_neg hr, if_pos rfl, if_neg (fun e => hr e.1), if_neg hr]
  · rw [if_neg hi]
    by_cases hr : r = 0
    · rw [if_pos hr, if_neg (fun e => e.2 hr), if_pos hr]
    · rw [if_neg hr, if_neg hr]
      by_cases h : r = i
      · subst h
        rw [if_pos ⟨rfl, hr⟩]
        simp [Vector.get_eq_getElem]
      · have hn : i.toNat ≠ r.toNat := fun e => h (BitVec.eq_of_toNat_eq e.symm)
        rw [if_neg (fun e => h e.1)]
        simp [Vector.get_eq_getElem, Vector.getElem_set_ne, hn]

/-- Storage of register 0 is never written. -/
@[simp] theorem writeReg_storage_zero (x : Vector Word 32) (i : RegIdx) (v : Word) : (writeReg x i v)[0] = x[0] := by
  unfold writeReg
  by_cases hi : i = 0
  · rw [if_pos hi]
  · have hn : i.toNat ≠ 0 := fun e => hi (BitVec.eq_of_toNat_eq e)
    rw [if_neg hi]
    exact Vector.getElem_set_ne _ _ hn

@[simp] theorem commitWrite_storage_zero (x : Vector Word 32) (w : Option (RegIdx × Word)) : (commitWrite x w)[0] = x[0] := by
  cases w with
  | none => rfl
  | some w => exact writeReg_storage_zero x w.1 w.2

/-- The register write that Writeback makes, as its two cases (R112). -/
theorem write_eq (l : MemoryWritebackLatch) :
    l.write = if l.control.regWriteEnable = true ∧ l.control.destReg ≠ 0 then
      some (l.control.destReg, if l.control.memReadEnable then l.loadedValue else l.aluResult) else none := by
  unfold MemoryWritebackLatch.write
  by_cases h : l.control.regWriteEnable = true <;> by_cases g : l.control.destReg = 0 <;> simp [h, g]

/-- Every register after Writeback (R112). -/
theorem readReg_commitWrite (x : Vector Word 32) (l : MemoryWritebackLatch) (r : RegIdx) :
    readReg (commitWrite x l.write) r =
      if l.control.regWriteEnable = true ∧ l.control.destReg ≠ 0 ∧ r = l.control.destReg then
        (if l.control.memReadEnable then l.loadedValue else l.aluResult)
      else readReg x r := by
  rw [write_eq]
  by_cases h : l.control.regWriteEnable = true ∧ l.control.destReg ≠ 0
  · rw [if_pos h]
    show readReg (writeReg _ _ _) r = _
    rw [readReg_writeReg]
    by_cases g : r = l.control.destReg
    · subst g
      rw [if_pos ⟨rfl, h.2⟩]
      exact (if_pos ⟨h.1, h.2, rfl⟩).symm
    · rw [if_neg (fun e => g e.1)]
      exact (if_neg (fun e => g e.2.2)).symm
  · rw [if_neg h, if_neg (fun e => h ⟨e.1, e.2.1⟩)]
    rfl

/-- A latch whose control record writes no register leaves the file alone. -/
theorem commitWrite_disabled (x : Vector Word 32) (l : MemoryWritebackLatch) (h : l.control.regWriteEnable = false) :
    commitWrite x l.write = x := by
  rw [write_eq, if_neg (by simp [h])]
  rfl

end Sys2Proof.Machine
end

