-- ==== Sys2Proof/Laws/Cycle.lean ====
section
/-! SUPPORT. What one step can do, said once: every meaning answers one clock cycle, with the Execute result of its instruction
(40_pipeline_engine.md R111, R122). -/

namespace Sys2Proof.Machine

/-- The Execute result of each instruction. -/
def execResult (i : Instr) (s : State) : ExecResult :=
  match i with
  | .add _ _ _ => .value (s.operandA + s.operandB)
  | .sub _ _ _ => .value (s.operandA - s.operandB)
  | .sll _ _ _ => .value (s.operandA <<< shiftAmount s.operandB)
  | .slt _ _ _ => .value (boolWord (lessSigned s.operandA s.operandB))
  | .sltu _ _ _ => .value (boolWord (lessUnsigned s.operandA s.operandB))
  | .xor _ _ _ => .value (s.operandA ^^^ s.operandB)
  | .srl _ _ _ => .value (s.operandA >>> shiftAmount s.operandB)
  | .sra _ _ _ => .value (s.operandA.sshiftRight (shiftAmount s.operandB))
  | .or _ _ _ => .value (s.operandA ||| s.operandB)
  | .and _ _ _ => .value (s.operandA &&& s.operandB)
  | .addi _ _ imm => .value (s.operandA + imm)
  | .slti _ _ imm => .value (boolWord (lessSigned s.operandA imm))
  | .sltiu _ _ imm => .value (boolWord (lessUnsigned s.operandA imm))
  | .xori _ _ imm => .value (s.operandA ^^^ imm)
  | .ori _ _ imm => .value (s.operandA ||| imm)
  | .andi _ _ imm => .value (s.operandA &&& imm)
  | .slli _ _ shamt => .value (s.operandA <<< shamt.toNat)
  | .srli _ _ shamt => .value (s.operandA >>> shamt.toNat)
  | .srai _ _ shamt => .value (s.operandA.sshiftRight shamt.toNat)
  | .lb _ _ imm => .value (s.operandA + imm)
  | .lbu _ _ imm => .value (s.operandA + imm)
  | .lw _ _ imm => .value (s.operandA + imm)
  | .sb _ _ imm => .value (s.operandA + imm)
  | .sw _ _ imm => .value (s.operandA + imm)
  | .beq _ _ o => .branch (s.pcI + o) (s.operandA == s.operandB)
  | .bne _ _ o => .branch (s.pcI + o) (s.operandA != s.operandB)
  | .blt _ _ o => .branch (s.pcI + o) (lessSigned s.operandA s.operandB)
  | .bge _ _ o => .branch (s.pcI + o) (!lessSigned s.operandA s.operandB)
  | .bltu _ _ o => .branch (s.pcI + o) (lessUnsigned s.operandA s.operandB)
  | .bgeu _ _ o => .branch (s.pcI + o) (!lessUnsigned s.operandA s.operandB)
  | .jal _ o => .jump s.npc (s.pcI + o)
  | .jalr _ _ imm => .jump s.npc ((s.operandA + imm) &&& 0xFFFFFFFE)
  | .bubble => .value 0

/-- Every meaning is one clock cycle with the instruction's Execute result. -/
theorem exec_eq (i : Instr) (s : State) : exec i s = .next (s.cycle (execResult i s)) := by cases i <;> rfl

/-- One step is the clock cycle of the instruction in Execute. -/
theorem step_eq (s : State) : step s = .next (s.cycle (execResult s.de.instr s)) := exec_eq _ _

/-- The state after a step. -/
theorem step_next_iff {s t : State} : step s = .next t ↔ t = s.cycle (execResult s.de.instr s) := by
  rw [step_eq]
  constructor
  · intro h
    cases h
    rfl
  · rintro rfl
    rfl

@[simp] theorem runSteps_zero (s : State) : runSteps 0 s = .next s := rfl

/-- Taking one step more. -/
theorem runSteps_succ (n : Nat) (s : State) : runSteps (n + 1) s = runSteps n (s.cycle (execResult s.de.instr s)) := by
  rw [runSteps, step_eq]

/-- With a bubble in Execute, the cycle has no result and no redirect. -/
theorem execResult_bubble (s : State) (h : s.de.control = ControlFields.bubble) : execResult s.de.instr s = .value 0 := by
  unfold DecodeExecuteLatch.instr
  rw [h]
  rfl

/-- The registers after a cycle (R112). -/
theorem cycle_reg (s : State) (r : ExecResult) (i : RegIdx) :
    (s.cycle r).reg i =
      if s.mw.control.regWriteEnable = true ∧ s.mw.control.destReg ≠ 0 ∧ i = s.mw.control.destReg then
        (if s.mw.control.memReadEnable then s.mw.loadedValue else s.mw.aluResult)
      else s.reg i :=
  readReg_commitWrite s.x s.mw i

/-- The memory after a cycle is in canonical form (R113). -/
theorem cycle_wf (s : State) (r : ExecResult) (h : s.mem.wf = true) : (s.cycle r).mem.wf = true := wf_memoryAfter s.em h

/-- An instruction that redirects is a branch or a jump. -/
theorem branchKind_of_taken (i : Instr) (rd : RegIdx) (s : State) (h : (execResult i s).branchTaken = true) :
    (controlOf i.kind rd).branchKind ≠ .NONE := by
  cases i <;> first | (simp [execResult] at h; done) | decide +revert | (simp [Instr.kind, controlOf])

end Sys2Proof.Machine
end

