-- ==== Sys2Proof/Laws/Encoder.lean ====
section
/-! SUPPORT. What the Encoder does with a line, said once: each operand, and each form of line as its operands in the order of R63
(30_encoding.md R80 to R86). -/

namespace Sys2Proof.Machine

open Reference

/-- A sequence of checks that passes has passed its first. -/
theorem check_bind_ok {α β : Type} {x : Except CheckFailure α} {f : α → Except CheckFailure β} {b : β} :
    (x >>= f) = .ok b ↔ ∃ a, x = .ok a ∧ f a = .ok b := by
  cases x with
  | error e =>
    constructor
    · intro h; cases h
    · rintro ⟨_, h, _⟩; cases h
  | ok a =>
    refine ⟨fun h => ⟨a, rfl, h⟩, ?_⟩
    rintro ⟨_, h, g⟩
    cases h
    exact g

@[simp] theorem check_bind_error {α β : Type} (e : CheckFailure) (f : α → Except CheckFailure β) : ((.error e : Except CheckFailure α) >>= f) = .error e :=
  rfl

@[simp] theorem check_ok_bind {α β : Type} (a : α) (f : α → Except CheckFailure β) : ((.ok a : Except CheckFailure α) >>= f) = f a := rfl

-- Operands.

theorem registerOperand_some {t : Text} {r : RegIdx} (h : parseRegister t = some r) : registerOperand t = .ok r := by simp [registerOperand, h]

theorem registerOperand_none {t : Text} (h : parseRegister t = none) : registerOperand t = .error ⟨.E_REGISTER, some t⟩ := by
  simp [registerOperand, h]

theorem registerOperand_ok_iff {t : Text} {r : RegIdx} : registerOperand t = .ok r ↔ parseRegister t = some r := by
  unfold registerOperand; split <;> simp_all

theorem immediateOperand_ok_iff {lo hi : Int} {t : Text} {w : Word} :
    immediateOperand lo hi t = .ok w ↔ ∃ v, parseLiteral t = some v ∧ lo ≤ v ∧ v ≤ hi ∧ w = BitVec.ofInt 32 v := by
  unfold immediateOperand
  cases h : parseLiteral t with
  | none => simp
  | some v =>
    by_cases g : lo ≤ v ∧ v ≤ hi
    · simp [g, eq_comm]
    · simp only [g, if_false]
      constructor
      · intro h; cases h
      · rintro ⟨v', hv, h1, h2, -⟩
        cases hv
        exact absurd ⟨h1, h2⟩ g

theorem targetOperand_ok_iff {lo hi : Int} {address : Word} {sym : SymbolTable} {t : Text} {w : Word} :
    targetOperand lo hi address sym t = .ok w ↔
      ∃ v, targetOffset address sym t = some v ∧ v % 2 = 0 ∧ lo ≤ v ∧ v ≤ hi ∧ w = BitVec.ofInt 32 v := by
  unfold targetOperand
  cases h : targetOffset address sym t with
  | none => simp
  | some v =>
    by_cases e : v % 2 = 0
    · by_cases g : lo ≤ v ∧ v ≤ hi
      · simp [e, g, eq_comm]
      · simp only [e, g, if_false, ne_eq, not_true_eq_false]
        constructor
        · intro h; cases h
        · rintro ⟨v', hv, -, h1, h2, -⟩
          cases hv
          exact absurd ⟨h1, h2⟩ g
    · simp only [e, if_true, ne_eq, not_false_eq_true]
      constructor
      · intro h; cases h
      · rintro ⟨v', hv, h1, -⟩
        cases hv
        exact absurd h1 e

-- Lines.

/-- The Encoder's answer from the instruction that the line stands for, or its first failing check. -/
theorem encodeParsed_of_ok {pi : ParsedInstruction} {sym : SymbolTable} {i : Instr} (h : assemble pi sym = .ok i) :
    encodeParsed pi sym = .ok (encode i) := by simp [encodeParsed, h]

theorem encodeParsed_of_error {pi : ParsedInstruction} {sym : SymbolTable} {e : CheckFailure} (h : assemble pi sym = .error e) :
    encodeParsed pi sym = .error ⟨e.kind, e.operand, pi.originalText⟩ := by simp [encodeParsed, h]

theorem encodeParsed_ok_iff {pi : ParsedInstruction} {sym : SymbolTable} {w : Word} :
    encodeParsed pi sym = .ok w ↔ ∃ i, assemble pi sym = .ok i ∧ encode i = w := by
  unfold encodeParsed; split <;> simp_all

variable {pi : ParsedInstruction} {sym : SymbolTable} {a b c : Text}

theorem assemble_registerLine {l : Text × (RegIdx → RegIdx → RegIdx → Instr)} (hl : l ∈ registerLines) (hm : pi.mnemonic = l.1)
    (ho : pi.operands = [a, b, c]) :
    assemble pi sym = (do
      let rd ← registerOperand (trimText a)
      let rs1 ← registerOperand (trimText b)
      let rs2 ← registerOperand (trimText c)
      return l.2 rd rs1 rs2) := by
  unfold assemble
  rw [hm, ho]
  revert l
  simp only [registerLines, List.forall_mem_cons, List.not_mem_nil, false_implies, implies_true, and_true]
  exact ⟨fun _ => rfl, fun _ => rfl, fun _ => rfl, fun _ => rfl, fun _ => rfl, fun _ => rfl, fun _ => rfl, fun _ => rfl, fun _ => rfl,
    fun _ => rfl⟩

theorem assemble_immediateLine {l : ImmediateLine} (hl : l ∈ immediateLines) (hm : pi.mnemonic = l.mnemonic) (ho : pi.operands = [a, b, c]) :
    assemble pi sym = (do
      let r ← registerOperand (trimText a)
      let rs1 ← registerOperand (trimText b)
      let v ← immediateOperand l.lo l.hi (trimText c)
      return l.instr r rs1 v) := by
  unfold assemble
  rw [hm, ho]
  revert l
  simp only [immediateLines, List.cons_append, List.nil_append, List.forall_mem_cons, List.not_mem_nil, false_implies, implies_true, and_true]
  exact ⟨fun _ => rfl, fun _ => rfl, fun _ => rfl, fun _ => rfl, fun _ => rfl, fun _ => rfl, fun _ => rfl, fun _ => rfl, fun _ => rfl,
    fun _ => rfl, fun _ => rfl, fun _ => rfl, fun _ => rfl, fun _ => rfl, fun _ => rfl⟩

theorem assemble_branchLine {l : Text × (RegIdx → RegIdx → Word → Instr)} (hl : l ∈ branchLines) (hm : pi.mnemonic = l.1)
    (ho : pi.operands = [a, b, c]) :
    assemble pi sym = (do
      let rs1 ← registerOperand (trimText a)
      let rs2 ← registerOperand (trimText b)
      let v ← targetOperand (-4096) 4094 pi.address sym (trimText c)
      return l.2 rs1 rs2 v) := by
  unfold assemble
  rw [hm, ho]
  revert l
  simp only [branchLines, List.forall_mem_cons, List.not_mem_nil, false_implies, implies_true, and_true]
  exact ⟨fun _ => rfl, fun _ => rfl, fun _ => rfl, fun _ => rfl, fun _ => rfl, fun _ => rfl⟩

theorem assemble_jal (hm : pi.mnemonic = "jal".toList) (ho : pi.operands = [a, b]) :
    assemble pi sym = (do
      let rd ← registerOperand (trimText a)
      let v ← targetOperand (-1048576) 1048574 pi.address sym (trimText b)
      return .jal rd v) := by
  unfold assemble
  rw [hm, ho]
  rfl

theorem assemble_jal_link (hm : pi.mnemonic = "jal".toList) (ho : pi.operands = [a]) :
    assemble pi sym = (do
      let v ← targetOperand (-1048576) 1048574 pi.address sym (trimText a)
      return .jal 1 v) := by
  unfold assemble
  rw [hm, ho]
  rfl

end Sys2Proof.Machine
end

