-- ==== Sys2Proof/Laws/PerInstr.lean ====
section
/-! SUPPORT. For every instruction, whatever its operands: the kind that Decode reads from its word is its own kind (30_encoding.md R102). The family
KindRoundTrip of LAWS.json. -/

namespace Sys2Proof.Laws.KindRoundTrip

/-- The word of the instruction is of its kind. -/
def Statement (i : Instr) : Prop := kindOfWord (encode i) = .ok i.kind

theorem add (a b c) : Statement (.add a b c) := (kindOfWord_packR _ _ _ _ _ _ (by decide)).trans rfl

theorem sub (a b c) : Statement (.sub a b c) := (kindOfWord_packR _ _ _ _ _ _ (by decide)).trans rfl

theorem sll (a b c) : Statement (.sll a b c) := (kindOfWord_packR _ _ _ _ _ _ (by decide)).trans rfl

theorem slt (a b c) : Statement (.slt a b c) := (kindOfWord_packR _ _ _ _ _ _ (by decide)).trans rfl

theorem sltu (a b c) : Statement (.sltu a b c) := (kindOfWord_packR _ _ _ _ _ _ (by decide)).trans rfl

theorem xor (a b c) : Statement (.xor a b c) := (kindOfWord_packR _ _ _ _ _ _ (by decide)).trans rfl

theorem srl (a b c) : Statement (.srl a b c) := (kindOfWord_packR _ _ _ _ _ _ (by decide)).trans rfl

theorem sra (a b c) : Statement (.sra a b c) := (kindOfWord_packR _ _ _ _ _ _ (by decide)).trans rfl

theorem or (a b c) : Statement (.or a b c) := (kindOfWord_packR _ _ _ _ _ _ (by decide)).trans rfl

theorem and (a b c) : Statement (.and a b c) := (kindOfWord_packR _ _ _ _ _ _ (by decide)).trans rfl

theorem addi (a b c) : Statement (.addi a b c) := (kindOfWord_packI _ _ _ _ _ (by decide)).trans rfl

theorem slti (a b c) : Statement (.slti a b c) := (kindOfWord_packI _ _ _ _ _ (by decide)).trans rfl

theorem sltiu (a b c) : Statement (.sltiu a b c) := (kindOfWord_packI _ _ _ _ _ (by decide)).trans rfl

theorem xori (a b c) : Statement (.xori a b c) := (kindOfWord_packI _ _ _ _ _ (by decide)).trans rfl

theorem ori (a b c) : Statement (.ori a b c) := (kindOfWord_packI _ _ _ _ _ (by decide)).trans rfl

theorem andi (a b c) : Statement (.andi a b c) := (kindOfWord_packI _ _ _ _ _ (by decide)).trans rfl

theorem slli (a b c) : Statement (.slli a b c) := (kindOfWord_packR _ _ _ _ _ _ (by decide)).trans rfl

theorem srli (a b c) : Statement (.srli a b c) := (kindOfWord_packR _ _ _ _ _ _ (by decide)).trans rfl

theorem srai (a b c) : Statement (.srai a b c) := (kindOfWord_packR _ _ _ _ _ _ (by decide)).trans rfl

theorem lb (a b c) : Statement (.lb a b c) := (kindOfWord_packI _ _ _ _ _ (by decide)).trans rfl

theorem lbu (a b c) : Statement (.lbu a b c) := (kindOfWord_packI _ _ _ _ _ (by decide)).trans rfl

theorem lw (a b c) : Statement (.lw a b c) := (kindOfWord_packI _ _ _ _ _ (by decide)).trans rfl

theorem sb (a b c) : Statement (.sb a b c) := (kindOfWord_packS _ _ _ _).trans rfl

theorem sw (a b c) : Statement (.sw a b c) := (kindOfWord_packS _ _ _ _).trans rfl

theorem beq (a b c) : Statement (.beq a b c) := (kindOfWord_packB _ _ _ _).trans rfl

theorem bne (a b c) : Statement (.bne a b c) := (kindOfWord_packB _ _ _ _).trans rfl

theorem blt (a b c) : Statement (.blt a b c) := (kindOfWord_packB _ _ _ _).trans rfl

theorem bge (a b c) : Statement (.bge a b c) := (kindOfWord_packB _ _ _ _).trans rfl

theorem bltu (a b c) : Statement (.bltu a b c) := (kindOfWord_packB _ _ _ _).trans rfl

theorem bgeu (a b c) : Statement (.bgeu a b c) := (kindOfWord_packB _ _ _ _).trans rfl

theorem jal (a b) : Statement (.jal a b) := kindOfWord_packJ _ _

theorem jalr (a b c) : Statement (.jalr a b c) := (kindOfWord_packI _ _ _ _ _ (by decide)).trans rfl

theorem bubble : Statement .bubble := rfl

end Sys2Proof.Laws.KindRoundTrip
end

