-- ==== Sys2Proof/Tests/Slice0.lean ====
section
/-! SUPPORT. The model's own tests, by decide, on words and values worked out in 95_test_vectors.md (not by this model), and for every statement
with hypotheses a witness that meets them all together. -/

open Sys2Proof Sys2Proof.Machine

namespace Sys2Proof.Tests

-- Helpers.

/-- The signed number as a word. -/
def sx (v : Int) : Word := BitVec.ofInt 32 v

/-- The answer of one step as what is asked of it; `none` if there is no next state. -/
def after {α : Type} (o : Host.Outcome State Fault Refusal) (f : State → α) : Option α :=
  match o with
  | .next t => some (f t)
  | _ => none

/-- The fault that an operation ends in, if it does. -/
def faultOf (o : Host.Outcome State Fault Refusal) : Option Fault :=
  match o with
  | .fault f => some f
  | _ => none

/-- Reset with the given operands and sequential successor in the DE latch, the instruction being given to `exec` directly. -/
def inExecute (a b npc : Word) : State :=
  { State.reset with de := { DecodeExecuteLatch.bubble with operandA := a, operandB := b, nextPc := npc } }

/-- The Execute result of an instruction on `A` and `B`. -/
def aluOf (i : Instr) (a b : Word) : Option Word := after (exec i (inExecute a b 4)) (fun t => t.em.aluResult)

/-- `aluResult`, `branchTaken` and the next pc of an instruction at `pcI`, fetch having gone on to `pcI + 8`. -/
def transferOf (i : Instr) (pcI a b : Word) : Option (Word × Bool × Word) :=
  after (exec i { inExecute a b (pcI + 4) with pc := pcI + 8 }) (fun t => (t.em.aluResult, t.em.branchTaken, t.pc))

/-- Reset with an instruction word, its effective address and store value in the EM latch, over a memory. -/
def inMemory (m : Memory) (w a v : Word) : State :=
  { State.reset with mem := m, em := { instructionWord := w, aluResult := a, storeValue := v, branchTaken := false, control := (decode w).control } }

/-- Construction of a program at address 0 with `DATA_INIT` empty. -/
def program (words : List Word) : State := construct Params.default ((List.range words.length).map (fun k => BitVec.ofNat 32 (4 * k)) |>.zip words)

/-- A parsed line at address 0. -/
def line (mnemonic : String) (operands : List String) : ParsedInstruction :=
  { address := 0, mnemonic := mnemonic.toList, operands := operands.map String.toList, originalText := [] }

/-- The error that a line at address 0 gives. -/
def errorOf (mnemonic : String) (operands : List String) : Option (ErrorKind × Option Text) :=
  match encodeParsed (line mnemonic operands) [] with
  | .error e => some (e.kind, e.operand)
  | .ok _ => none

-- Decoding: words of 95_test_vectors.md 2.1, every constructor.

theorem test_decode_register_rows :
    decodeWord 0x002081B3 = .ok (.add 3 1 2) ∧
    decodeWord 0x407302B3 = .ok (.sub 5 6 7) ∧
    decodeWord 0x007312B3 = .ok (.sll 5 6 7) ∧
    decodeWord 0x00C5A533 = .ok (.slt 10 11 12) ∧
    decodeWord 0x0124B433 = .ok (.sltu 8 9 18) ∧
    decodeWord 0x00C5C533 = .ok (.xor 10 11 12) ∧
    decodeWord 0x003150B3 = .ok (.srl 1 2 3) ∧
    decodeWord 0x403150B3 = .ok (.sra 1 2 3) ∧
    decodeWord 0x003160B3 = .ok (.or 1 2 3) ∧
    decodeWord 0x01DF7FB3 = .ok (.and 31 30 29) := by decide

theorem test_decode_immediate_rows :
    decodeWord 0x80000093 = .ok (.addi 1 0 (sx (-2048))) ∧
    decodeWord 0xFFF12093 = .ok (.slti 1 2 (sx (-1))) ∧
    decodeWord 0x00113093 = .ok (.sltiu 1 2 1) ∧
    decodeWord 0xFFF14093 = .ok (.xori 1 2 (sx (-1))) ∧
    decodeWord 0x7FF16093 = .ok (.ori 1 2 2047) ∧
    decodeWord 0x0FF17093 = .ok (.andi 1 2 255) ∧
    decodeWord 0x01F11093 = .ok (.slli 1 2 31) ∧
    decodeWord 0x01F15093 = .ok (.srli 1 2 31) ∧
    decodeWord 0x41F15093 = .ok (.srai 1 2 31) := by decide

theorem test_decode_memory_rows :
    decodeWord 0x00028183 = .ok (.lb 3 5 0) ∧
    decodeWord 0xFFF2C203 = .ok (.lbu 4 5 (sx (-1))) ∧
    decodeWord 0x7FF2A303 = .ok (.lw 6 5 2047) ∧
    decodeWord 0x002280A3 = .ok (.sb 2 5 1) ∧
    decodeWord 0x81F12023 = .ok (.sw 31 2 (sx (-2048))) := by decide

theorem test_decode_control_rows :
    decodeWord 0x7E208FE3 = .ok (.beq 1 2 4094) ∧
    decodeWord 0xFE0098E3 = .ok (.bne 1 0 (sx (-16))) ∧
    decodeWord 0x8020C063 = .ok (.blt 1 2 (sx (-4096))) ∧
    decodeWord 0x8020D063 = .ok (.bge 1 2 (sx (-4096))) ∧
    decodeWord 0x0041E463 = .ok (.bltu 3 4 8) ∧
    decodeWord 0xFE41FCE3 = .ok (.bgeu 3 4 (sx (-8))) ∧
    decodeWord 0x7FFFF0EF = .ok (.jal 1 1048574) ∧
    decodeWord 0x800280E7 = .ok (.jalr 1 5 (sx (-2048))) := by decide

theorem test_decode_zero_word : decodeWord 0 = .ok .bubble := by decide

-- The same, written out field by field from R65 to R70.

theorem test_decode_R_fields : decodeWord 0b0100000_00111_00110_000_00101_0110011 = .ok (.sub 5 6 7) := by decide

theorem test_decode_I_fields : decodeWord 0b100000000000_00101_000_00001_1100111 = .ok (.jalr 1 5 (sx (-2048))) := by decide

theorem test_decode_shift_fields : decodeWord 0b0100000_00001_00010_101_00001_0010011 = .ok (.srai 1 2 1) := by decide

theorem test_decode_S_fields : decodeWord 0b0111111_11111_00010_010_11111_0100011 = .ok (.sw 31 2 2047) := by decide

/-- `w[31] = v[12]`, `w[30:25] = v[10:5]`, `w[11:8] = v[4:1]`, `w[7] = v[11]`; -16 has v[12] = v[11] = 1, v[10:5] = 111111, v[4:1] = 1000. -/
theorem test_decode_B_fields : decodeWord 0b1_111111_00000_00001_001_1000_1_1100011 = .ok (.bne 1 0 (sx (-16))) := by decide

/-- 2048 has v[11] = 1 alone, which stands at w[20]. -/
theorem test_decode_J_fields : decodeWord 0b0_0000000000_1_00000000_00001_1101111 = .ok (.jal 1 2048) := by decide

/-- 95_test_vectors.md 2.3: words with no row, by the class of R98. -/
theorem test_decode_unrecognised :
    decodeWord 0xFFFFFFFF = .error .majorOpcode ∧
    decodeWord 0x00000037 = .error .majorOpcode ∧
    decodeWord 0x0000000F = .error .majorOpcode ∧
    decodeWord 0x00000073 = .error .majorOpcode ∧
    decodeWord 0x00001003 = .error .loadFunct3 ∧
    decodeWord 0x00001023 = .error .storeFunct3 ∧
    decodeWord 0x02208033 = .error .opFunct7 ∧
    decodeWord 0x02009093 = .error .shiftFunct7 ∧
    decodeWord 0x00002063 = .error .branchFunct3 ∧
    decodeWord 0x00001067 = .error .jalrFunct3 := by decide

theorem test_decode_bytes :
    decodeBytes [0xB3, 0x81, 0x20, 0x00, 0x13] = some (.ok (.add 3 1 2), [0x13]) ∧ decodeBytes [0xB3, 0x81, 0x20] = none := by decide

theorem test_decodeTableWord : decodeTableWord 32 0x40007033 = none ∧ decodeTableWord 32 0x002081B3 = some (.add 3 1 2) := by decide

-- WellFormed: for each check an ill-formed term, which it refuses, beside the bound that it takes (R83).

theorem test_wellFormed_imm12 :
    (Instr.addi 1 0 2048).wellFormed = false ∧ (Instr.addi 1 0 (sx (-2049))).wellFormed = false ∧ (Instr.addi 1 0 2047).wellFormed = true ∧
      (Instr.addi 1 0 (sx (-2048))).wellFormed = true := by decide

theorem test_wellFormed_shamt : (Instr.slli 1 1 32).wellFormed = false ∧ (Instr.slli 1 1 31).wellFormed = true := by decide

theorem test_wellFormed_store : (Instr.sw 1 2 2048).wellFormed = false ∧ (Instr.sw 1 2 2047).wellFormed = true := by decide

theorem test_wellFormed_branch :
    (Instr.beq 1 2 3).wellFormed = false ∧ (Instr.beq 1 2 4096).wellFormed = false ∧ (Instr.beq 1 2 (sx (-4098))).wellFormed = false ∧
      (Instr.beq 1 2 4094).wellFormed = true ∧ (Instr.beq 1 2 (sx (-4096))).wellFormed = true := by decide

theorem test_wellFormed_jump :
    (Instr.jal 1 7).wellFormed = false ∧ (Instr.jal 1 1048576).wellFormed = false ∧ (Instr.jal 1 (sx (-1048578))).wellFormed = false ∧
      (Instr.jal 1 1048574).wellFormed = true ∧ (Instr.jal 1 (sx (-1048576))).wellFormed = true := by decide

-- Execute (95_test_vectors.md 3.1, 3.2).

theorem test_execute_add : aluOf (.add 3 1 2) 0x7FFFFFFF 0x00000001 = some 0x80000000 ∧ aluOf (.add 3 1 2) 0xFFFFFFFF 0x00000001 = some 0x0 := by decide

theorem test_execute_sub : aluOf (.sub 3 1 2) 0x0 0x1 = some 0xFFFFFFFF ∧ aluOf (.sub 3 1 2) 0x80000000 0x1 = some 0x7FFFFFFF := by decide

theorem test_execute_sll : aluOf (.sll 3 1 2) 0x1 0x20 = some 0x1 ∧ aluOf (.sll 3 1 2) 0xFFFFFFFF 0x21 = some 0xFFFFFFFE := by decide

theorem test_execute_slt : aluOf (.slt 3 1 2) 0xFFFFFFFF 0x1 = some 0x1 ∧ aluOf (.slt 3 1 2) 0x1 0xFFFFFFFF = some 0x0 ∧ aluOf (.slt 3 1 2) 0x80000000 0x7FFFFFFF = some 0x1 := by decide

theorem test_execute_sltu : aluOf (.sltu 3 1 2) 0xFFFFFFFF 0x1 = some 0x0 ∧ aluOf (.sltu 3 1 2) 0x0 0x1 = some 0x1 := by decide

theorem test_execute_xor : aluOf (.xor 3 1 2) 0xFFFFFFFF 0x12345678 = some 0xEDCBA987 := by decide

theorem test_execute_srl : aluOf (.srl 3 1 2) 0x80000000 0x1F = some 0x1 ∧ aluOf (.srl 3 1 2) 0x80000000 0x20 = some 0x80000000 := by decide

theorem test_execute_sra : aluOf (.sra 3 1 2) 0x80000000 0x3F = some 0xFFFFFFFF ∧ aluOf (.sra 3 1 2) 0x7FFFFFFF 0x1F = some 0x0 := by decide

theorem test_execute_or : aluOf (.or 3 1 2) 0xF0 0x0F = some 0xFF := by decide

theorem test_execute_and : aluOf (.and 3 1 2) 0xF0 0x3C = some 0x30 := by decide

theorem test_execute_addi : aluOf (.addi 3 1 (sx (-2048))) 0x0 0xFFFFFFFF = some 0xFFFFF800 := by decide

theorem test_execute_slti : aluOf (.slti 3 1 (sx (-1))) 0xFFFFFFFE 0xFFFFFFFF = some 0x1 := by decide

theorem test_execute_sltiu : aluOf (.sltiu 3 1 (sx (-1))) 0x5 0xFFFFFFFF = some 0x1 ∧ aluOf (.sltiu 3 1 (sx (-1))) 0xFFFFFFFF 0xFFFFFFFF = some 0x0 := by decide

theorem test_execute_xori : aluOf (.xori 3 1 (sx (-1))) 0x12345678 0xFFFFFFFF = some 0xEDCBA987 := by decide

theorem test_execute_ori : aluOf (.ori 3 1 2047) 0x0 0xFFFFFFFF = some 0x7FF := by decide

theorem test_execute_andi : aluOf (.andi 3 1 (sx (-2048))) 0xFFFFFFFF 0xFFFFFFFF = some 0xFFFFF800 := by decide

theorem test_execute_slli : aluOf (.slli 3 1 31) 0x1 0xFFFFFFFF = some 0x80000000 := by decide

theorem test_execute_srli : aluOf (.srli 3 1 31) 0xFFFFFFFF 0xFFFFFFFF = some 0x1 := by decide

theorem test_execute_srai : aluOf (.srai 3 1 1) 0x80000000 0xFFFFFFFF = some 0xC0000000 ∧ aluOf (.srai 3 1 31) 0x80000000 0xFFFFFFFF = some 0xFFFFFFFF := by decide

-- Loads and stores: the effective address in Execute, the access in the Memory stage (95_test_vectors.md 3.3).

/-- The address wraps to 0. -/
theorem test_execute_effective_address :
    aluOf (.lw 8 0 (sx (-2))) 0 0 = some 0xFFFFFFFE ∧ aluOf (.sb 1 5 2) 0xFFFFFFFF 7 = some 1 ∧ aluOf (.lbu 4 5 (sx (-1))) 0x201 0 = some 0x200 := by
  decide

theorem test_memory_lb : after (step (inMemory [(0x200, 0x80)] 0x00028183 0x200 0)) (fun t => t.mw.loadedValue) = some 0xFFFFFF80 := by decide

theorem test_memory_lbu : after (step (inMemory [(0x200, 0x80)] 0xFFF2C203 0x200 0)) (fun t => t.mw.loadedValue) = some 0x80 := by decide

/-- Misaligned, no fault. -/
theorem test_memory_lw_misaligned :
    after (step (inMemory [(0x201, 0x11), (0x202, 0x22), (0x203, 0x33), (0x204, 0x44)] 0x0002A303 0x201 0)) (fun t => t.mw.loadedValue) =
      some 0x44332211 := by decide

/-- The last two bytes come from addresses 0 and 1. -/
theorem test_memory_lw_wraps :
    after (step (inMemory [(0, 0x03), (1, 0x24), (0xFFFFFFFE, 0x11), (0xFFFFFFFF, 0x22)] 0xFFE02403 0xFFFFFFFE 0)) (fun t => t.mw.loadedValue) =
      some 0x24032211 := by decide

theorem test_memory_sb :
    after (step (inMemory [(0x201, 0x55)] 0x00128023 0x200 0xFFFFFF80)) (fun t => t.mem) = some [(0x200, 0x80), (0x201, 0x55)] := by decide

/-- The zero bytes of the word are not listed, and one that was is removed. -/
theorem test_memory_sw :
    after (step (inMemory [(0x205, 0x11), (0x206, 0x22)] 0x0062A223 0x204 0x7F80)) (fun t => t.mem) = some [(0x204, 0x80), (0x205, 0x7F)] := by
  decide

-- Branches and jumps (95_test_vectors.md 3.4, 3.5): aluResult, branchTaken, next pc.

theorem test_execute_beq : transferOf (.beq 1 2 16) 0x100 5 5 = some (0x110, true, 0x110) := by decide

theorem test_execute_bne : transferOf (.bne 1 2 16) 0x100 5 5 = some (0x110, false, 0x10C) := by decide

theorem test_execute_blt :
    transferOf (.blt 1 2 (sx (-512))) 0x100 0x80000000 0x7FFFFFFF = some (0xFFFFFF00, true, 0xFFFFFF00) := by decide

theorem test_execute_bge :
    transferOf (.bge 1 2 6) 0x100 5 5 = some (0x106, true, 0x106) ∧ transferOf (.bge 1 2 6) 0x100 0xFFFFFFFF 0 = some (0x106, false, 0x10C) := by
  decide

theorem test_execute_bltu : transferOf (.bltu 1 2 32) 0xFFFFFFF0 0xFFFFFFFF 0 = some (0x10, false, 0xFFFFFFFC) := by decide

theorem test_execute_bgeu : transferOf (.bgeu 1 2 32) 0xFFFFFFF0 0xFFFFFFFF 0 = some (0x10, true, 0x10) := by decide

theorem test_execute_jal : transferOf (.jal 1 28) 0 0 0 = some (0x04, true, 0x1C) := by decide

theorem test_execute_jalr :
    transferOf (.jalr 1 5 2) 0x40 0xFFFFFFFF 0 = some (0x44, true, 0) ∧ transferOf (.jalr 0 5 3) 0 0x300 0 = some (4, true, 0x302) := by decide

theorem test_execute_bubble : transferOf .bubble 0x100 5 5 = some (0, false, 0x10C) := by decide

-- Writeback and the zero wire.

theorem test_writeback_register_0 :
    after (step { State.reset with mw := { instructionWord := 0x00500013, aluResult := 5, loadedValue := 0, control := (decode 0x00500013).control } })
      (fun t => t.x) = some State.reset.x := by decide

theorem test_writeback_load_value :
    after (step { State.reset with mw := { instructionWord := 0x00028183, aluResult := 5, loadedValue := 9, control := (decode 0x00028183).control } })
      (fun t => (t.reg 3, t.reg 5)) = some (9, 0) := by decide

-- Reset, the placed word and the host's calls.

theorem test_reset_is_empty_construction : State.reset = construct Params.default [] := by decide

theorem test_placed_word_runs :
    (State.reset.withFetchWord 32 0x002081B3).de.instr = .add 3 1 2 ∧
      after (step (State.reset.withFetchWord 32 0x002081B3)) id = after (exec (.add 3 1 2) (State.reset.withFetchWord 32 0x002081B3)) id := by decide

/-- R200: the words go over `DATA_INIT`; register 0 is 0 whatever `REG_INIT` says. -/
theorem test_construct :
    let s := construct { imemBase := 0x10, regInit := Vector.replicate 32 7, dataInit := [(0x10, 0xEE), (0x20, 0xEE)] } [(0x10, 0x00500093)]
    s.mem = [(0x10, 0x93), (0x12, 0x50), (0x20, 0xEE)] ∧ s.reg 0 = 0 ∧ s.reg 31 = 7 ∧ s.pc = 0x10 := by decide

theorem test_host_registers :
    after (State.reset.setRegister 31 (-1)) (fun t => (t.reg 31, (t.getRegister 31).toOption)) = some (0xFFFFFFFF, some (-1)) ∧
      after (State.reset.setRegister 0 5) id = some State.reset ∧ faultOf (State.reset.setRegister 32 0) = some .hostRegisterIndex ∧
      faultOf (State.reset.setRegister (-1) 0) = some .hostRegisterIndex := by decide

theorem test_host_memory :
    after (State.reset.setMemoryByte 4294967295 255) id = some { State.reset with mem := [(4294967295, 255)] } ∧
      faultOf (State.reset.setMemoryByte 0 256) = some .hostByteValue ∧
      faultOf (State.reset.setMemoryByte 4294967296 0) = some .hostAddress := by decide

-- The Encoder (95_test_vectors.md 2.1, 2.2).

theorem test_encoder_operand_forms :
    encodeParsed (line "bnez" ["a0", "-12"]) [] = .ok 0xFE051AE3 ∧ encodeParsed (line "jal" ["-8"]) [] = .ok 0xFF9FF0EF ∧
    encodeParsed (line "sw" ["x31", "x2", "-2048"]) [] = .ok 0x81F12023 ∧ encodeParsed (line "ret" []) [] = .ok 0x00008067 := by decide

theorem test_encoder_literals :
    encodeParsed (line "addi" ["x1", " x0", "-0x10"]) [] = .ok 0xFF000093 ∧ encodeParsed (line "addi" ["x1", "x0\t", "+0X7ff"]) [] = .ok 0x7FF00093 ∧
    encodeParsed (line "addi" ["x1", "x0", "007"]) [] = .ok 0x00700093 := by decide

/-- 95_test_vectors.md 1.2. -/
theorem test_encoder_labels :
    encodeParsed { line "bne" ["x1", "x0", "loop"] with address := 0x20 } [("loop".toList, 0x10)] = .ok 0xFE0098E3 ∧
    encodeParsed { line "j" ["end"] with address := 0x10 } [("end".toList, 0x2C)] = .ok 0x01C0006F := by decide

theorem test_encoder_errors_operands :
    errorOf "ADD" ["x1", "x2", "x3"] = some (.E_MNEMONIC, none) ∧
    errorOf "add" ["x1", "x2"] = some (.E_ARITY, none) ∧
    errorOf "jal" ["x1", "x2", "8"] = some (.E_ARITY, none) ∧
    errorOf "add" ["x32", "x1", "x2"] = some (.E_REGISTER, some "x32".toList) ∧
    errorOf "add" ["x01", "x1", "x2"] = some (.E_REGISTER, some "x01".toList) ∧
    errorOf "addi" ["x1", "x0", "0xFFF"] = some (.E_RANGE, some "0xFFF".toList) := by decide

theorem test_encoder_errors_values :
    errorOf "addi" ["x1", "x0", "1.5"] = some (.E_IMM_SYNTAX, some "1.5".toList) ∧
    errorOf "slli" ["x1", "x1", "-1"] = some (.E_RANGE, some "-1".toList) ∧
    errorOf "beq" ["x1", "x2", "3"] = some (.E_OFFSET_ALIGN, some "3".toList) ∧
    errorOf "beq" ["x1", "x2", "4096"] = some (.E_RANGE, some "4096".toList) ∧
    errorOf "beq" ["x1", "x2", "nolabel"] = some (.E_SYMBOL, some "nolabel".toList) ∧
    errorOf "addi" ["x32", "x0", "5000"] = some (.E_REGISTER, some "x32".toList) := by decide

theorem test_encoder_program_error : encodeProgram [] [line "nop" [], line "lh" [], line "add" []] = .error ⟨.E_MNEMONIC, none, []⟩ := by decide

-- Witnesses: for every statement with hypotheses, states and operands that meet them all together, at the bounds of each clause.

/-- A row of the opcode table is matched (so is the zero row), and a word matches none. -/
theorem witness_opcode_rows :
    (⟨.SUB, 0x40000033, 0xFE00707F⟩ ∈ opcodeTable ∧ (0x407302B3 : Word) &&& 0xFE00707F = 0x40000033) ∧
    (⟨.BUBBLE, 0, 0xFFFFFFFF⟩ ∈ opcodeTable ∧ (0 : Word) &&& 0xFFFFFFFF = 0) ∧
    ((0xFFFFFFFF : Word) ≠ 0 ∧ ∀ r ∈ opcodeTable, (0xFFFFFFFF : Word) &&& r.mask ≠ r.pattern) := by decide

/-- Well-formed instructions at the bounds of each operand (DecodeAfterEncode, the hypotheses on `i` elsewhere). -/
theorem witness_wellFormed :
    ∀ i ∈ [Instr.add 31 31 31, .addi 0 31 2047, .addi 31 0 (sx (-2048)), .slli 1 2 0, .srai 1 2 31, .sw 31 2 (sx (-2048)), .sb 0 0 2047,
      .beq 1 2 4094, .bgeu 1 2 (sx (-4096)), .jal 1 1048574, .jal 0 (sx (-1048576)), .jalr 31 31 (sx (-2048)), .bubble], i.wellFormed = true := by
  decide

theorem witness_EncodeAfterDecode : decodeWord 0x8000006F = .ok (.jal 0 (sx (-1048576))) ∧ decodeWord 0 = .ok .bubble := by decide

/-- A word store that crosses the top of the address space, into a memory in canonical form. -/
theorem witness_LittleEndianAccesses :
    Memory.wf [(1, 7), (0xFFFFFFFF, 9)] = true ∧ (5 : Word) ∉ [(0xFFFFFFFE : Word), 0xFFFFFFFE + 1, 0xFFFFFFFE + 2, 0xFFFFFFFE + 3] ∧
      Memory.storeWord [(1, 7), (0xFFFFFFFF, 9)] 0xFFFFFFFE 0x00332211 = [(0, 0x33), (0xFFFFFFFE, 0x11), (0xFFFFFFFF, 0x22)] := by decide

theorem witness_EqualReadsEqualMemories :
    ∃ m n : Memory, m.wf = true ∧ n.wf = true ∧ (∀ a : Word, m.readByte a = n.readByte a) ∧ m ≠ [] :=
  ⟨[(1, 7)], [(1, 7)], by decide, by decide, fun _ => rfl, by decide⟩

/-- The DE latch of an `addi`, decoded. -/
def decodedAddi : State := { inExecute 3 0 4 with de := ⟨0x7FF28093, 3, 0, 2047, 4, ⟨1, true, .ADDI, false, false, .NONE⟩⟩ }

theorem witness_StepRunsInstructionInExecute :
    (Instr.addi 1 5 2047).wellFormed = true ∧ decodedAddi.de.instructionWord = encode (.addi 1 5 2047) ∧
      decodedAddi.de.control = (decode (encode (.addi 1 5 2047))).control ∧ decodedAddi.de.immediate = (decode (encode (.addi 1 5 2047))).immediate := by
  decide

theorem witness_FetchedWordReachesExecute :
    (Instr.addi 1 5 2047).wellFormed = true ∧ (program [0x7FF28093]).memNext.readWord (program [0x7FF28093]).pc = encode (.addi 1 5 2047) := by decide

theorem witness_PlacedWordRunsNext : State.reset.mem.wf = true ∧ (Instr.jal 1 2048).wellFormed = true := by decide

theorem witness_ExecuteFrame : ∃ t, exec (.sub 1 2 3) decodedAddi = .next t := ⟨_, exec_eq _ _⟩

/-- Writeback: a latch of an ALU instruction, of a load, of one that writes register 0 and of one that writes nothing. -/
theorem witness_WritebackRule :
    (∃ c : ControlFields, c = (decode 0x00500093).control ∧ c.regWriteEnable = true ∧ c.destReg ≠ 0 ∧ c.memReadEnable = false) ∧
    (∃ c : ControlFields, c = (decode 0x00028183).control ∧ c.regWriteEnable = true ∧ c.destReg ≠ 0 ∧ c.memReadEnable = true) ∧
    (∃ c : ControlFields, c = (decode 0x00500013).control ∧ c.regWriteEnable = true ∧ c.destReg = 0) ∧
    (∃ c : ControlFields, c = (decode 0x00302023).control ∧ c.regWriteEnable = false) :=
  ⟨⟨_, rfl, by decide, by decide, by decide⟩, ⟨_, rfl, by decide, by decide, by decide⟩, ⟨_, rfl, by decide, by decide⟩, ⟨_, rfl, by decide⟩⟩

/-- The Memory stage: each of its five accesses, and none. -/
theorem witness_MemoryStageRule :
    ((decode 0x00302023).control.memWriteEnable = true ∧ (decode 0x00302023).control.opKind = .SW) ∧
    ((decode 0x00128023).control.memWriteEnable = true ∧ (decode 0x00128023).control.opKind = .SB) ∧
    ((decode 0x0002A303).control.memReadEnable = true ∧ (decode 0x0002A303).control.opKind = .LW) ∧
    ((decode 0x00028183).control.memReadEnable = true ∧ (decode 0x00028183).control.opKind = .LB) ∧
    ((decode 0xFFF2C203).control.memReadEnable = true ∧ (decode 0xFFF2C203).control.opKind = .LBU) ∧
    ((decode 0x00500093).control.memReadEnable = false ∧ (decode 0x00500093).control.memWriteEnable = false) := by decide

/-- A DE latch of the given kind, at 0x100, with the given operands and immediate. -/
def transferLatch (k : OpKind) (a b imm : Word) : DecodeExecuteLatch :=
  { instructionWord := 0, operandA := a, operandB := b, immediate := imm, nextPc := 0x104, control := controlOf k 1 }

theorem witness_FetchAndPcRule :
    Reference.redirect (transferLatch .BEQ 5 5 16) = some 0x110 ∧ Reference.redirect (transferLatch .BEQ 5 6 16) = none ∧
      Reference.redirect (transferLatch .BGE 5 5 16) = some 0x110 ∧ Reference.redirect (transferLatch .BLT 5 5 16) = none ∧
      Reference.redirect (transferLatch .BLTU 5 5 16) = none ∧ Reference.redirect (transferLatch .JALR 0xFFFFFFFF 0 2) = some 0 ∧
      Reference.redirect (transferLatch .ADD 5 5 16) = none := by decide

theorem witness_ZeroWire : (-2147483648 : Int) ≤ -2147483648 ∧ (-2147483648 : Int) ≤ 2147483647 ∧ (2147483647 : Int) ≤ 2147483647 := by decide

/-- A state with a given word in FD. -/
def fetched (w : Word) : State := { State.reset with fd := { pc := 0, instructionWord := w, nextPc := 4 } }

theorem witness_ZeroWordIsBubble : (fetched 0).fd.instructionWord = 0 := by decide

theorem witness_UnrecognisedWordIsBubble :
    (fetched 0x00000073).fd.instructionWord ≠ 0 ∧ ∀ r ∈ opcodeTable, (fetched 0x00000073).fd.instructionWord &&& r.mask ≠ r.pattern := by decide

-- One instruction alone: construction from its word, registers 1, 2, … holding 0x1001, 0x1002, ….

/-- Registers holding their number plus 0x1000, and a byte at 0x1001. -/
def filled : Params :=
  { imemBase := 0x40, regInit := Vector.ofFn (fun k => 0x1000 + BitVec.ofNat 32 k.val), dataInit := [(0x1001, 0x80)] }

/-- The state of `filled` with one instruction at the pc. -/
def aloneState (i : Instr) : State := construct filled [(0x40, encode i)]

/-- The conditions of `State.Alone`, and that the instruction is well-formed, as one check. -/
def aloneCheck (i : Instr) : Bool :=
  let s := aloneState i
  i.wellFormed && (decode s.fd.instructionWord).control == ControlFields.bubble && s.de.control == ControlFields.bubble &&
    s.em.control == ControlFields.bubble && s.mw.control == ControlFields.bubble && s.mem.wf && s.mem.readWord s.pc == encode i &&
    s.mem.readWord (s.pc + 4) == 0 && s.mem.readWord (s.pc + 8) == 0

theorem alone_of_check {i : Instr} (h : aloneCheck i = true) : i.wellFormed = true ∧ (aloneState i).Alone (encode i) := by
  simp only [aloneCheck, Bool.and_eq_true, beq_iff_eq] at h
  obtain ⟨⟨⟨⟨⟨⟨⟨⟨hw, h1⟩, h2⟩, h3⟩, h4⟩, h5⟩, h6⟩, h7⟩, h8⟩ := h
  exact ⟨hw, h1, h2, h3, h4, h5, h6, h7, h8⟩

theorem witness_alone_register :
    ∀ i ∈ [Instr.add 3 1 2, .sub 0 1 2, .sll 31 31 31, .slt 1 1 1, .sltu 1 0 0, .xor 4 5 6, .srl 1 2 3, .sra 1 2 3, .or 1 2 3, .and 1 2 3],
      i.wellFormed = true ∧ (aloneState i).Alone (encode i) := fun i hi => alone_of_check (by revert i; decide)

theorem witness_alone_immediate :
    ∀ i ∈ [Instr.addi 1 2 2047, .slti 0 2 (sx (-2048)), .sltiu 1 2 (sx (-1)), .xori 1 2 (sx (-1)), .ori 1 2 0, .andi 1 2 255, .slli 1 2 0,
      .srli 1 2 31, .srai 1 2 31], i.wellFormed = true ∧ (aloneState i).Alone (encode i) := fun i hi => alone_of_check (by revert i; decide)

theorem witness_alone_memory :
    ∀ i ∈ [Instr.lb 3 1 0, .lbu 0 1 (sx (-2048)), .lw 3 1 2047, .sb 1 1 (sx (-2048)), .sw 31 0 (sx (-2))],
      i.wellFormed = true ∧ (aloneState i).Alone (encode i) := fun i hi => alone_of_check (by revert i; decide)

theorem witness_alone_transfer :
    ∀ i ∈ [Instr.beq 1 1 4094, .bne 1 1 (sx (-4096)), .blt 1 2 8, .bge 1 2 8, .bltu 1 2 6, .bgeu 2 1 (sx (-8)), .jal 1 1048574,
      .jal 0 (sx (-1048576)), .jalr 5 5 2047, .bubble], i.wellFormed = true ∧ (aloneState i).Alone (encode i) :=
  fun i hi => alone_of_check (by revert i; decide)

-- Hazards.

/-- An instruction in Execute, and the consumers `add x2, x1, x1` at distance 4 (address 8) and distance 5 (address 12). -/
def producing (l : DecodeExecuteLatch) : State :=
  { State.reset with de := l, mem := Memory.storeWord (Memory.storeWord [] 8 0x00108133) 12 0x00108133 }

/-- The next state of every step. -/
def next (s : State) : State := s.cycle (execResult s.de.instr s)

/-- What the hypotheses ask of a producer of register 1 and of its consumers at distance 4 and 5. -/
def producerCheck (l : DecodeExecuteLatch) : Bool :=
  let s3 := next (next (next (producing l)))
  l.control.regWriteEnable && l.control.destReg == 1 && s3.mw.control == ControlFields.bubble && rs1Of s3.fd.instructionWord == 1 &&
    rs1Of (next s3).fd.instructionWord == 1 && rs2Of (next s3).fd.instructionWord == 1

theorem distance_of_check {l : DecodeExecuteLatch} (h : producerCheck l = true) :
    ∃ s1 s2 s3 s4 b1 b2 v : State, (producing l).de.control.regWriteEnable = true ∧ (producing l).de.control.destReg ≠ 0 ∧
      step (producing l) = .next s1 ∧ step s1 = .next s2 ∧ step s2 = .next s3 ∧ step s3 = .next s4 ∧
      step { producing l with de := DecodeExecuteLatch.bubble } = .next b1 ∧ step b1 = .next b2 ∧
      runSteps 0 s3 = .next s3 ∧ rs1Of s3.fd.instructionWord = (producing l).de.control.destReg ∧
      runSteps 1 s3 = .next s4 ∧ step s4 = .next v ∧
      (∀ j w, j < 1 → runSteps j s3 = .next w →
        ¬(w.mw.control.regWriteEnable = true ∧ w.mw.control.destReg = (producing l).de.control.destReg)) ∧
      rs1Of s4.fd.instructionWord = (producing l).de.control.destReg ∧ rs2Of s4.fd.instructionWord = (producing l).de.control.destReg := by
  simp only [producerCheck, Bool.and_eq_true, beq_iff_eq] at h
  obtain ⟨⟨⟨⟨⟨hw, hd⟩, hm⟩, h4⟩, h5⟩, h6⟩ := h
  have hd' : (producing l).de.control.destReg = 1 := hd
  refine ⟨_, _, next (next (next (producing l))), _, _, _, _, hw, by rw [hd']; decide, step_eq _, step_eq _, step_eq _, step_eq _, step_eq _,
    step_eq _, rfl, h4.trans hd'.symm, by rw [runSteps_succ]; rfl, step_eq _, ?_, h5.trans hd'.symm, h6.trans hd'.symm⟩
  intro j w hj hr
  obtain rfl : j = 0 := by omega
  cases hr
  rw [hm]
  exact fun g => absurd g.1 (by decide)

/-- The producer in Execute is an ALU instruction (`addi x1, x5, 2047`), a load (`lw x1, 0(x5)`) and a jump (`jal x1, 2048`); the jump's own consumers
are fetched at its target, so only the first two have theirs at 8 and 12. -/
theorem witness_RegisterReadAfterWriteDistance :
    (producerCheck ⟨0x7FF28093, 3, 0, 2047, 4, (decode 0x7FF28093).control⟩ = true ∧
      producerCheck ⟨0x0002A083, 3, 0, 0, 4, (decode 0x0002A083).control⟩ = true) ∧
    (decode 0x0002A083).control.memReadEnable = true ∧ (decode 0x001000EF).control.regWriteEnable = true := by decide

/-- A state with a taken branch in Execute and a word already fetched. -/
def branching (w : Word) : State := { fetched w with de := transferLatch .BEQ 5 5 16, pc := 0x108 }

theorem witness_TwoDelaySlots : Reference.redirect (branching 0x00100093).de = some 0x110 := by decide

/-- The first clause: a `jal` (0x02C0006F) in the first delay slot. -/
theorem witness_RedirectInDelaySlot_first :
    ∃ s1 s2 s3 s4 tY, Reference.redirect (branching 0x02C0006F).de = some 0x110 ∧ step (branching 0x02C0006F) = .next s1 ∧ step s1 = .next s2 ∧
      step s2 = .next s3 ∧ step s3 = .next s4 ∧ Reference.redirect s1.de = some tY :=
  ⟨_, _, _, _, 0x2C, by decide, step_eq _, step_eq _, step_eq _, step_eq _, by decide⟩

/-- The second clause: none in the first slot, the `jal` in the second. -/
theorem witness_RedirectInDelaySlot_second :
    ∃ (s s1 s2 s3 s4 : State) (tX tY : Word), Reference.redirect s.de = some tX ∧ step s = .next s1 ∧ step s1 = .next s2 ∧
      step s2 = .next s3 ∧ step s3 = .next s4 ∧ Reference.redirect s1.de = none ∧ Reference.redirect s2.de = some tY :=
  ⟨{ branching 0x00100093 with mem := Memory.storeWord [] 0x108 0x02C0006F }, _, _, _, _, 0x110, 0x134, by decide, step_eq _, step_eq _,
    step_eq _, step_eq _, by decide, by decide⟩

theorem witness_StoreSeenBySameStepFetch :
    let s := inMemory [(0, 0x13)] 0x0062A223 0 0x00900393
    s.mem.wf = true ∧ s.em.control.memWriteEnable = true ∧ s.em.control.opKind = .SW ∧ s.em.aluResult = s.pc := by decide

/-- LS1 of 95_test_vectors.md: `sw x6, 0(x5)` in EM, `lw x7, 0(x5)` in DE. -/
def storeThenLoad : State :=
  { inMemory [] 0x0062A023 0x200 0x55 with de := ⟨0x0002A383, 0x200, 0, 0, 0x28, (decode 0x0002A383).control⟩ }

theorem witness_LoadBehindStore :
    ∃ s1 s2, storeThenLoad.mem.wf = true ∧ storeThenLoad.em.control = (decode storeThenLoad.em.instructionWord).control ∧
      storeThenLoad.de.control = (decode storeThenLoad.de.instructionWord).control ∧ storeThenLoad.em.control.opKind = .SW ∧
      storeThenLoad.de.control.opKind = .LW ∧ storeThenLoad.operandA + storeThenLoad.de.immediate = storeThenLoad.em.aluResult ∧
      step storeThenLoad = .next s1 ∧ step s1 = .next s2 :=
  ⟨_, _, by decide, by decide, by decide, by decide, by decide, by decide, step_eq _, step_eq _⟩

theorem witness_FirstFourStepsWriteNoRegister : (0 : Nat) ≤ 4 ∧ (4 : Nat) ≤ 4 := by decide

-- The invariant, the host and the end of a run.

/-- `storeThenLoad` meets the invariant, with an instruction in each of two latches. -/
theorem storeThenLoad_inv : storeThenLoad.Inv :=
  ⟨by decide, by decide, ⟨Or.inl rfl, rfl, by decide, rfl, by decide, rfl, by decide⟩⟩

theorem witness_StepKeepsInvariant : ∃ t, storeThenLoad.Inv ∧ step storeThenLoad = .next t := ⟨_, storeThenLoad_inv, step_eq _⟩

theorem witness_HostCallsKeepInvariant :
    storeThenLoad.Inv ∧ ∀ op ∈ [HostOp.step, .observe, .getRegister 31, .setRegister 31 (-2147483648), .getMemoryByte 4294967295,
      .setMemoryByte 4294967295 255], ∃ t, op.apply storeThenLoad = .next t := by
  refine ⟨storeThenLoad_inv, ?_⟩
  simp only [List.forall_mem_cons, List.not_mem_nil, false_implies, implies_true, and_true]
  exact ⟨⟨_, step_eq _⟩, ⟨_, rfl⟩, ⟨_, rfl⟩, ⟨_, rfl⟩, ⟨_, rfl⟩, ⟨_, rfl⟩⟩

/-- Each clause at its bounds: index 31, 32 and -1, value -2^31 - 1, byte value 255 and 256, address 2^32 - 1, 2^32 and -1. -/
theorem witness_HostFaultsExactlyOutOfRange :
    ((0 : Int) ≤ 31 ∧ (31 : Int) ≤ 31) ∧ ¬((0 : Int) ≤ 32 ∧ (32 : Int) ≤ 31) ∧ ¬((0 : Int) ≤ -1 ∧ (-1 : Int) ≤ 31) ∧
      ¬((-2147483648 : Int) ≤ -2147483649 ∧ (-2147483649 : Int) ≤ 2147483647) ∧
      ((0 : Int) ≤ 4294967295 ∧ (4294967295 : Int) ≤ 4294967295) ∧ ¬((0 : Int) ≤ 256 ∧ (256 : Int) ≤ 255) ∧
      ¬((0 : Int) ≤ 4294967296 ∧ (4294967296 : Int) ≤ 4294967295) ∧ ¬((0 : Int) ≤ -1 ∧ (-1 : Int) ≤ 4294967295) := by decide

/-- The host writes register 5 before the step whose Decode reads it as rs1 and as rs2 (`add x2, x5, x5`). -/
theorem witness_HostWritesAreRead_register :
    ∃ t u, (fetched 0x00528133).mem.wf = true ∧ (fetched 0x00528133).setRegister 5 (-7) = .next t ∧ step t = .next u ∧
      rs1Of (fetched 0x00528133).fd.instructionWord = BitVec.ofInt 5 5 ∧ rs2Of (fetched 0x00528133).fd.instructionWord = BitVec.ofInt 5 5 ∧
      (1 : Int) ≤ 5 :=
  ⟨_, _, by decide, rfl, step_eq _, by decide, by decide, by decide⟩

/-- The host writes the byte at 1, the second byte of the word at the pc, while a `lw` of 0xFFFFFFFE (so its last byte), a `lbu` of 1 or a `lb` of 1 is in
the Memory stage, and no store. -/
theorem witness_HostWritesAreRead_memory :
    ∀ e ∈ [((0x0002A303 : Word), OpKind.LW, (0xFFFFFFFE : Word), (3 : Nat)), (0xFFF2C203, .LBU, 1, 0), (0x00028183, .LB, 1, 0)],
      ∃ t u, (inMemory [] e.1 e.2.2.1 0).mem.wf = true ∧ (inMemory [] e.1 e.2.2.1 0).setMemoryByte 1 255 = .next t ∧ step t = .next u ∧
        BitVec.ofInt 32 1 ∉ (inMemory [] e.1 e.2.2.1 0).storeFootprint ∧
        (inMemory [] e.1 e.2.2.1 0).pc + BitVec.ofNat 32 1 = BitVec.ofInt 32 1 ∧
        (inMemory [] e.1 e.2.2.1 0).em.control.memReadEnable = true ∧ (inMemory [] e.1 e.2.2.1 0).em.control.opKind = e.2.1 ∧
        (inMemory [] e.1 e.2.2.1 0).em.aluResult + BitVec.ofNat 32 e.2.2.2 = BitVec.ofInt 32 1 ∧ e.2.2.2 < 4 := by
  simp only [List.forall_mem_cons, List.not_mem_nil, false_implies, implies_true, and_true]
  exact ⟨⟨_, _, by decide, rfl, step_eq _, by decide⟩, ⟨_, _, by decide, rfl, step_eq _, by decide⟩,
    ⟨_, _, by decide, rfl, step_eq _, by decide⟩⟩

theorem witness_EmptyPipelineChangesNothing :
    State.reset.Inv ∧ State.reset.pipelineEmpty = true ∧ (decode (State.reset.mem.readWord State.reset.pc)).control.opKind = .BUBBLE :=
  ⟨⟨by decide, by decide, ⟨Or.inl rfl, rfl, by decide, rfl, by decide, rfl, by decide⟩⟩, by decide, by decide⟩

/-- A run that drains: a program of one zero word, which is past its end after one step. -/
theorem witness_ObservedEndIsFirstDrained : ∃ t, observe 0 1 1 (program [0]) = .drained t ∧ ∃ u, runSteps 0 (program [0]) = .next u :=
  ⟨_, rfl, _, rfl⟩

theorem witness_ObserveNeverFaults : { State.reset with illegalSeen := true }.illegalSeen = true := by decide

-- The Encoder.

/-- One line of each form, at the bounds of its operands, and the instruction that it stands for (95_test_vectors.md 2.1). -/
theorem witness_EncoderWordsDecode :
    encodeParsed (line "blt" ["x1", "x2", "-4096"]) [] = .ok 0x8020C063 ∧
    assemble (line "and" ["t6", "t5", "t4"]) [] = .ok (.and 31 30 29) ∧
    assemble (line "sw" ["x31", "x2", "-2048"]) [] = .ok (.sw 31 2 (sx (-2048))) ∧
    assemble (line "blt" ["x1", "x2", "-4096"]) [] = .ok (.blt 1 2 (sx (-4096))) ∧
    assemble (line "jal" ["x1", "2048"]) [] = .ok (.jal 1 2048) ∧
    assemble (line "jal" ["-8"]) [] = .ok (.jal 1 (sx (-8))) := by decide

theorem witness_EncoderWordsDecode_lines :
    (∃ l ∈ Reference.registerLines, (line "and" ["t6", "t5", "t4"]).mnemonic = l.1) ∧
    (∃ l ∈ Reference.immediateLines, (line "sw" ["x31", "x2", "-2048"]).mnemonic = l.mnemonic ∧ l.lo = -2048 ∧ l.hi = 2047) ∧
    (∃ l ∈ Reference.branchLines, (line "blt" ["x1", "x2", "-4096"]).mnemonic = l.1) :=
  ⟨⟨("and".toList, .and), by simp [Reference.registerLines], rfl⟩,
    ⟨⟨"sw".toList, .sw, -2048, 2047⟩, by simp [Reference.immediateLines], rfl, rfl, rfl⟩,
    ⟨("blt".toList, .blt), by simp [Reference.branchLines], rfl⟩⟩

theorem witness_ProgramEncodingAllOrNothing :
    encodeProgram [] [line "nop" [], { line "ret" [] with address := 4 }] = .ok [(0, 0x00000013), (4, 0x00008067)] ∧
      encodeProgram [] [line "nop" [], line "lh" []] = .error ⟨.E_MNEMONIC, none, []⟩ := by decide

/-- An unknown mnemonic; a known one with a wrong count; a bad first, second and third register; a bad register of `jal`. -/
theorem witness_EncoderCheckOrder :
    "lh".toList ∉ Reference.mnemonics.map (fun m => m.1) ∧
    (("jal".toList, [1, 2]) ∈ Reference.mnemonics ∧ 3 ∉ [1, 2]) ∧
    "addi".toList ∈ Reference.registerLines.map (fun l => l.1) ++ Reference.immediateLines.map (fun l => l.mnemonic) ++
      Reference.branchLines.map (fun l => l.1) ∧
    "add".toList ∈ Reference.registerLines.map (fun l => l.1) ∧
    parseRegister (trimText "x32".toList) = none ∧ parseRegister (trimText "x1".toList) ≠ none := by decide

/-- Both bounds, one beyond, and a text that is no literal; a line of each range whose registers pass. -/
theorem witness_ImmediateRangeCheck :
    (-2147483648 : Int) ≤ -2048 ∧ (2047 : Int) ≤ 2147483647 ∧ parseLiteral "1.5".toList = none ∧ parseLiteral "2048".toList = some 2048 ∧
      ¬((-2048 : Int) ≤ 2048 ∧ (2048 : Int) ≤ 2047) ∧ parseLiteral "-2048".toList = some (-2048) ∧ parseLiteral "0x7FF".toList = some 2047 ∧
      Reference.immediateLines.map (fun l => (l.mnemonic, l.lo, l.hi)) =
        ["addi", "slti", "sltiu", "xori", "ori", "andi"].map (fun m => (m.toList, -2048, 2047)) ++
          ["slli", "srli", "srai"].map (fun m => (m.toList, 0, 31)) ++
          ["lb", "lbu", "lw", "sb", "sw", "jalr"].map (fun m => (m.toList, -2048, 2047)) ∧
      parseRegister (trimText " t6".toList) = some 31 ∧ parseRegister (trimText "x0\t".toList) = some 0 := by decide

/-- R83 at the bounds and one beyond, for `slli` and `sw`. -/
theorem test_encoder_range_bounds :
    encodeParsed (line "srai" ["x1", "x2", "31"]) [] = .ok 0x41F15093 ∧ errorOf "slli" ["x1", "x1", "32"] = some (.E_RANGE, some "32".toList) ∧
    encodeParsed (line "sw" ["x31", "x2", "-2048"]) [] = .ok 0x81F12023 ∧ errorOf "sw" ["x1", "x2", "-2049"] = some (.E_RANGE, some "-2049".toList) := by
  decide

theorem witness_LabelOffsetIsDifference :
    (∃ w, encodeParsed { line "bne" ["x1", "x0", "loop"] with address := 0x20 } [("loop".toList, 0x10)] = .ok w ∧
      lookupText "bne".toList mnemonicTable = some (.core .BNE) ∧ formatOf .BNE = some .branch ∧
      lookupText (trimText "loop".toList) [("loop".toList, (0x10 : Word))] = some 0x10) ∧
    (∃ w, encodeParsed (line "jal" ["f"]) [("f".toList, 0xFFFFE)] = .ok w ∧ lookupText "jal".toList mnemonicTable = some (.core .JAL) ∧
      lookupText (trimText "f".toList) [("f".toList, (0xFFFFE : Word))] = some 0xFFFFE) :=
  ⟨⟨0xFE0098E3, by decide, by decide, by decide, by decide⟩, ⟨0x7FFFF0EF, by decide, by decide, by decide⟩⟩

/-- Neither label nor literal; an odd offset; an even one beyond the range; a label; a literal. -/
theorem witness_TargetChecks :
    (lookupText "nolabel".toList ([] : SymbolTable) = none ∧ parseLiteral "nolabel".toList = none) ∧
    (targetOffset 0 [] "-3".toList = some (-3) ∧ (-3 : Int) % 2 = 1) ∧
    ((-2147483648 : Int) ≤ -4096 ∧ (4094 : Int) ≤ 2147483647 ∧ targetOffset 0 [] "4094".toList = some 4094 ∧ (4094 : Int) % 2 = 0) ∧
    (targetOffset 0 [] "4096".toList = some 4096 ∧ (4096 : Int) % 2 = 0 ∧ ¬((-4096 : Int) ≤ 4096 ∧ (4096 : Int) ≤ 4094)) ∧
    lookupText "a".toList [("a".toList, (4 : Word))] = some 4 := by decide

/-- The hypotheses of the clauses at `encodeParsed`: a branch line, `jal` with a register and without, registers that pass. -/
theorem witness_TargetChecks_lines :
    (("bgeu".toList) ∈ Reference.branchLines.map (fun l => l.1) ∧ parseRegister (trimText "x31".toList) = some 31 ∧
      parseRegister (trimText "zero".toList) = some 0) ∧
    (line "jal" ["x1", "8"]).operands = ["x1".toList, "8".toList] ∧ (line "jal" ["8"]).operands = ["8".toList] := by decide

/-- The texts that R81 names as refused, some of those it accepts, and a text whose ends are trimmed. -/
theorem witness_OperandSpellings :
    (∀ t ∈ ["x32", "x01", "X1", "r1", "x", "zero1", ""], parseRegister t.toList = none) ∧
    parseRegister "fp".toList = some 8 ∧ parseRegister "x31".toList = some 31 ∧ parseRegister "x0".toList = some 0 ∧
    parseLiteral "-0x10".toList = some (-16) ∧ parseLiteral "0xFFF".toList = some 4095 ∧ parseLiteral "+".toList = none ∧
    (trimText "\t a b ".toList).head? = some 'a' ∧ (trimText "\t a b ".toList).getLast? = some 'b' := by decide

theorem witness_DuplicateLabelIsFatal :
    ([("a".toList, (0 : Word)), ("b".toList, 4)].map (fun e => e.1)).Nodup ∧
      ¬([("a".toList, (0 : Word)), ("b".toList, 4), ("a".toList, 8)].map (fun e => e.1)).Nodup := by decide

end Sys2Proof.Tests
end

section
/-! PROOFS. The state family (10_state.md): the zero wire, `cycles`, `illegalSeen` and what the host writes (O19, O20, O21, O48), after the lemmas about
the step, the opcode table, memory and the host operations that they rest on. -/

namespace Sys2Proof.Machine

-- The step reads neither `cycles` nor `illegalSeen` (10_state.md R35, R36).

/-- The Execute stage reads nothing of the state but its DE latch (R114). -/
theorem execResult_congr {s t : State} (h : s.de = t.de) (i : Instr) : execResult i s = execResult i t := by
  cases i <;> simp only [execResult, State.operandA, State.operandB, State.npc, State.pcI, h]

/-- `n` steps complete, and count `n`. -/
theorem runSteps_cycles (n : Nat) (s : State) : ∃ t, runSteps n s = .next t ∧ t.cycles = s.cycles + n := by
  induction n generalizing s with
  | zero => exact ⟨s, rfl, rfl⟩
  | succ n ih =>
    obtain ⟨t, hrun, hcycles⟩ := ih (s.cycle (execResult s.de.instr s))
    refine ⟨t, (runSteps_succ n s).trans hrun, ?_⟩
    rw [hcycles, State.cycle_cycles]
    omega

/-- A step from a state that differs in `cycles` ends in one that differs in `cycles`. -/
theorem step_with_cycles (s : State) (n : Nat) :
    step { s with cycles := n } = .next { s.cycle (execResult s.de.instr s) with cycles := n + 1 } := by
  rw [step_eq, execResult_congr (t := s) rfl]
  rfl

/-- A step from a state that differs in the mark ends in one that differs in the mark. -/
theorem step_with_illegalSeen (s : State) (b : Bool) :
    step { s with illegalSeen := b } = .next { s.cycle (execResult s.de.instr s) with
      illegalSeen := b || (decode s.fd.instructionWord).unrecognised } := by
  rw [step_eq, execResult_congr (t := s) rfl]
  rfl

-- The rows of the opcode table by the fields of a word (30_encoding.md R95, R96).

/-- The row accepts a word of these fields: it fixes the opcode, and of funct3 and funct7 those that its mask covers. -/
abbrev acceptsFields (r : OpcodeRow) (op : BitVec 7) (f3 : BitVec 3) (f7 : BitVec 7) : Prop :=
  (funct7Of r.mask ≠ 0 → f7 = funct7Of r.pattern) ∧ (funct3Of r.mask ≠ 0 → f3 = funct3Of r.pattern) ∧ op = opcodeOf r.pattern

/-- A word is its six fields, whatever its format. -/
theorem packR_fields (w : Word) : packR (funct7Of w) (rs2Of w) (rs1Of w) (funct3Of w) (rdOf w) (opcodeOf w) = w := by
  apply BitVec.eq_of_toNat_eq
  have hlt := w.isLt
  simp only [packR_toNat, opcodeOf, rdOf, funct3Of, rs1Of, rs2Of, funct7Of, toNat_field]
  omega

/-- A masked word equals a pattern when each field does. -/
theorem and_eq_iff_fields (w m p : Word) : w &&& m = p ↔
    funct7Of w &&& funct7Of m = funct7Of p ∧ rs2Of w &&& rs2Of m = rs2Of p ∧ rs1Of w &&& rs1Of m = rs1Of p ∧
      funct3Of w &&& funct3Of m = funct3Of p ∧ rdOf w &&& rdOf m = rdOf p ∧ opcodeOf w &&& opcodeOf m = opcodeOf p := by
  simp only [funct7Of, rs2Of, rs1Of, funct3Of, rdOf, opcodeOf, ← BitVec.extractLsb'_and]
  constructor
  · rintro rfl
    simp only [and_self]
  · rintro ⟨h7, h2, h1, h3, hd, ho⟩
    rw [← packR_fields (w &&& m), ← packR_fields p]
    simp only [funct7Of, rs2Of, rs1Of, funct3Of, rdOf, opcodeOf, h7, h2, h1, h3, hd, ho]

/-- A mask that covers a field wholly or not at all fixes it or leaves it free. -/
theorem and_eq_iff_of_whole {n : Nat} {m p : BitVec n} (h : m = BitVec.allOnes n ∨ m = 0 ∧ p = 0) (x : BitVec n) :
    x &&& m = p ↔ (m ≠ 0 → x = p) := by
  rcases h with rfl | ⟨rfl, rfl⟩
  · rw [BitVec.and_allOnes]
    refine ⟨fun h _ => h, fun h => ?_⟩
    by_cases hn : BitVec.allOnes n = 0
    · rw [← BitVec.and_allOnes (x := x), ← BitVec.and_allOnes (x := p), hn]
      simp
    · exact h hn
  · simp

/-- The rows but for the bubble's fix the opcode, the other two fields wholly or not at all, and no other bit. -/
theorem opcodeTable_masks : ∀ r ∈ opcodeTable, r.kind ≠ .BUBBLE →
    (rs2Of r.mask = 0 ∧ rs1Of r.mask = 0 ∧ rdOf r.mask = 0 ∧ rs2Of r.pattern = 0 ∧ rs1Of r.pattern = 0 ∧ rdOf r.pattern = 0) ∧
      opcodeOf r.mask = BitVec.allOnes 7 ∧ (funct3Of r.mask = BitVec.allOnes 3 ∨ funct3Of r.mask = 0 ∧ funct3Of r.pattern = 0) ∧
        (funct7Of r.mask = BitVec.allOnes 7 ∨ funct7Of r.mask = 0 ∧ funct7Of r.pattern = 0) := by
  decide

/-- A row but for the bubble's accepts a word by its three fields. -/
theorem row_accepts_iff {r : OpcodeRow} (hr : r ∈ opcodeTable) (hk : r.kind ≠ .BUBBLE) (w : Word) :
    w &&& r.mask = r.pattern ↔ acceptsFields r (opcodeOf w) (funct3Of w) (funct7Of w) := by
  obtain ⟨⟨hm2, hm1, hmd, hp2, hp1, hpd⟩, ho, h3, h7⟩ := opcodeTable_masks r hr hk
  rw [and_eq_iff_fields, hm2, hm1, hmd, hp2, hp1, hpd, ho, and_eq_iff_of_whole h3, and_eq_iff_of_whole h7]
  rw [BitVec.and_allOnes]
  simp [acceptsFields]

-- From a row to the opKind.

/-- The one row that leaves funct3 free is `jal`'s. -/
theorem opcodeTable_free_funct3 : ∀ r ∈ opcodeTable, r.kind ≠ .BUBBLE → funct3Of r.mask = 0 →
    r.kind = .JAL ∧ opcodeOf r.pattern = 0b1101111#7 := by decide

/-- The fields that a row with funct3 fixes have that row's opKind, whatever it leaves free of funct7. -/
theorem kindOfFields_pattern : ∀ r ∈ opcodeTable, r.kind ≠ .BUBBLE → funct3Of r.mask ≠ 0 →
    ∀ f7, (funct7Of r.mask ≠ 0 → f7 = funct7Of r.pattern) →
      kindOfFields (opcodeOf r.pattern) (funct3Of r.pattern) f7 = .ok r.kind := by decide

theorem kindOfFields_of_accepts {r : OpcodeRow} (hr : r ∈ opcodeTable) (hk : r.kind ≠ .BUBBLE) {op : BitVec 7} {f3 : BitVec 3}
    {f7 : BitVec 7} (h : acceptsFields r op f3 f7) : kindOfFields op f3 f7 = .ok r.kind := by
  obtain ⟨h7, h3, rfl⟩ := h
  by_cases hf : funct3Of r.mask = 0
  · obtain ⟨hjal, hop⟩ := opcodeTable_free_funct3 r hr hk hf
    rw [hjal, hop]
    rfl
  · rw [h3 hf]
    exact kindOfFields_pattern r hr hk hf f7 h7

-- From the opKind to a row.

/-- Some row of the opKind, not the bubble's, accepts a word of these fields. -/
abbrev HasRow (k : OpKind) (op : BitVec 7) (f3 : BitVec 3) (f7 : BitVec 7) : Prop :=
  ∃ r ∈ opcodeTable, r.kind = k ∧ r.kind ≠ .BUBBLE ∧ acceptsFields r op f3 f7

theorem kindOp_hasRow : ∀ f3 f7, ∀ k ∈ (kindOp f3 f7).toOption, HasRow k 0b0110011 f3 f7 := by decide

theorem kindOpImm_hasRow : ∀ f3 f7, ∀ k ∈ (kindOpImm f3 f7).toOption, HasRow k 0b0010011 f3 f7 := by decide

/-- The same of a row that leaves funct7 free. -/
abbrev HasFreeRow (k : OpKind) (op : BitVec 7) (f3 : BitVec 3) : Prop :=
  ∃ r ∈ opcodeTable, r.kind = k ∧ r.kind ≠ .BUBBLE ∧ funct7Of r.mask = 0 ∧ (funct3Of r.mask ≠ 0 → f3 = funct3Of r.pattern) ∧
    op = opcodeOf r.pattern

theorem HasFreeRow.hasRow {k : OpKind} {op : BitVec 7} {f3 : BitVec 3} (h : HasFreeRow k op f3) (f7 : BitVec 7) :
    HasRow k op f3 f7 := by
  obtain ⟨r, hr, hk, hb, h7, h3, ho⟩ := h
  exact ⟨r, hr, hk, hb, fun hne => absurd h7 hne, h3, ho⟩

theorem kindLoad_hasFreeRow : ∀ f3, ∀ k ∈ (kindLoad f3).toOption, HasFreeRow k 0b0000011 f3 := by decide

theorem kindStore_hasFreeRow : ∀ f3, ∀ k ∈ (kindStore f3).toOption, HasFreeRow k 0b0100011 f3 := by decide

theorem kindBranch_hasFreeRow : ∀ f3, ∀ k ∈ (kindBranch f3).toOption, HasFreeRow k 0b1100011 f3 := by decide

theorem jal_hasFreeRow : ∀ f3, HasFreeRow .JAL 0b1101111 f3 := by decide

theorem jalr_hasFreeRow : HasFreeRow .JALR 0b1100111 0 := by decide

theorem mem_toOption {k : OpKind} {x : Except Unrecognised OpKind} (h : x = .ok k) : k ∈ x.toOption := by
  rw [h]
  rfl

theorem kindOfFields_hasRow {op : BitVec 7} {f3 : BitVec 3} {f7 : BitVec 7} {k : OpKind} (h : kindOfFields op f3 f7 = .ok k) :
    HasRow k op f3 f7 := by
  unfold kindOfFields at h
  split_ifs at h with hop himm hload hstore hbranch hjal hjalr h0
  · exact hop ▸ kindOp_hasRow f3 f7 k (mem_toOption h)
  · exact himm ▸ kindOpImm_hasRow f3 f7 k (mem_toOption h)
  · exact hload ▸ (kindLoad_hasFreeRow f3 k (mem_toOption h)).hasRow f7
  · exact hstore ▸ (kindStore_hasFreeRow f3 k (mem_toOption h)).hasRow f7
  · exact hbranch ▸ (kindBranch_hasFreeRow f3 k (mem_toOption h)).hasRow f7
  · cases h
    exact hjal ▸ (jal_hasFreeRow f3).hasRow f7
  · cases h
    exact hjalr ▸ h0 ▸ jalr_hasFreeRow.hasRow f7

-- Words and rows (R96, R97).

/-- The bubble's row accepts the all-zero word alone. -/
theorem opcodeTable_bubble : ∀ r ∈ opcodeTable, r.kind = .BUBBLE → r = ⟨.BUBBLE, 0, BitVec.allOnes 32⟩ := by decide

theorem opcodeTable_opcode_ne_zero : ∀ r ∈ opcodeTable, r.kind ≠ .BUBBLE → opcodeOf r.pattern ≠ 0 := by decide

/-- A word that matches a row has the row's opKind. -/
theorem kindOfWord_of_row {r : OpcodeRow} (hr : r ∈ opcodeTable) {w : Word} (h : w &&& r.mask = r.pattern) :
    kindOfWord w = .ok r.kind := by
  by_cases hk : r.kind = .BUBBLE
  · obtain rfl := opcodeTable_bubble r hr hk
    obtain rfl : w = 0 := BitVec.and_allOnes.symm.trans h
    rfl
  · have hacc := (row_accepts_iff hr hk w).1 h
    have ⟨_, _, hpattern⟩ := hacc
    have hop : opcodeOf w ≠ 0 := hpattern ▸ opcodeTable_opcode_ne_zero r hr hk
    exact (kindOfWord_of_opcode hop).trans (kindOfFields_of_accepts hr hk hacc)

/-- A word that has an opKind matches a row of that opKind. -/
theorem row_of_kindOfWord {w : Word} {k : OpKind} (h : kindOfWord w = .ok k) :
    ∃ r ∈ opcodeTable, r.kind = k ∧ w &&& r.mask = r.pattern := by
  unfold kindOfWord at h
  split at h
  case isTrue hz =>
    cases h
    exact ⟨⟨.BUBBLE, 0, 0xFFFFFFFF⟩, by decide, rfl, by rw [hz]; rfl⟩
  case isFalse =>
    obtain ⟨r, hr, hk, hb, hacc⟩ := kindOfFields_hasRow h
    exact ⟨r, hr, hk, (row_accepts_iff hr hb w).2 hacc⟩

/-- Decode marks exactly the nonzero words without a row (R98). -/
theorem unrecognised_iff (w : Word) :
    (decode w).unrecognised = true ↔ w ≠ 0 ∧ ∀ r ∈ opcodeTable, w &&& r.mask ≠ r.pattern := by
  cases hk : kindOfWord w with
  | ok k =>
    obtain ⟨r, hr, -, h⟩ := row_of_kindOfWord hk
    rw [decode_ok hk]
    exact iff_of_false Bool.false_ne_true (fun hnone => hnone.2 r hr h)
  | error u =>
    rw [decode_error hk]
    refine iff_of_true rfl ⟨?_, fun r hr h => ?_⟩
    · rintro rfl
      cases hk
    · cases hk.symm.trans (kindOfWord_of_row hr h)

-- Registers (10_state.md R21, R22).

/-- A latch whose destination is register 0 leaves the file alone. -/
theorem commitWrite_register_zero (x : Vector Word 32) (l : MemoryWritebackLatch) (h : l.control.destReg = 0) :
    commitWrite x l.write = x := by
  rw [write_eq, if_neg (fun e => e.2 h)]
  rfl

@[simp] theorem writeReg_zero (x : Vector Word 32) (v : Word) : writeReg x 0 v = x := rfl

-- What the host writes (40_pipeline_engine.md R124).

theorem isRegisterIndex_iff (i : Int) : isRegisterIndex i = true ↔ 0 ≤ i ∧ i ≤ 31 := decide_eq_true_iff

theorem isI32_iff (v : Int) : isI32 v = true ↔ -2147483648 ≤ v ∧ v ≤ 2147483647 := decide_eq_true_iff

theorem isByteValue_iff (v : Int) : isByteValue v = true ↔ 0 ≤ v ∧ v ≤ 255 := decide_eq_true_iff

/-- What a call of setRegister that answers a state has done. -/
theorem setRegister_next_iff {s t : State} {i v : Int} : s.setRegister i v = .next t ↔
    isRegisterIndex i = true ∧ isI32 v = true ∧ t = { s with x := writeReg s.x (BitVec.ofInt 5 i) (BitVec.ofInt 32 v) } := by
  unfold State.setRegister
  cases isRegisterIndex i <;> cases isI32 v <;> simp [eq_comm]

/-- What a call of setMemoryByte that answers a state has done. -/
theorem setMemoryByte_next_iff {s t : State} {a b : Int} : s.setMemoryByte a b = .next t ↔
    isU32 a = true ∧ isByteValue b = true ∧ t = { s with mem := s.mem.writeByte (BitVec.ofInt 32 a) (BitVec.ofInt 8 b) } := by
  unfold State.setMemoryByte
  cases isU32 a <;> cases isByteValue b <;> simp [eq_comm]

/-- An i32 survives its 32-bit pattern. -/
theorem toInt_ofInt_of_isI32 {v : Int} (h : isI32 v = true) : (BitVec.ofInt 32 v).toInt = v := by
  obtain ⟨hlo, hhi⟩ := (isI32_iff v).1 h
  exact BitVec.toInt_ofInt_eq_self (by decide) (by omega) (by omega)

/-- A byte value survives its 8-bit pattern. -/
theorem toNat_ofInt_of_isByteValue {b : Int} (h : isByteValue b = true) : ((BitVec.ofInt 8 b).toNat : Int) = b := by
  obtain ⟨hlo, hhi⟩ := (isByteValue_iff b).1 h
  rw [BitVec.toNat_ofInt]
  omega

/-- A register index from 1 does not name register 0. -/
theorem ofInt_ne_zero_of_isRegisterIndex {i : Int} (h : isRegisterIndex i = true) (h1 : 1 ≤ i) : BitVec.ofInt 5 i ≠ 0 := by
  obtain ⟨-, hhi⟩ := (isRegisterIndex_iff i).1 h
  intro e
  have hnat : (i % 32).toNat = 0 := (BitVec.toNat_ofInt i).symm.trans (congrArg BitVec.toNat e)
  omega

-- The step's own store, and reading a byte of what it fetches or loads.

/-- This cycle's store changes no byte outside its footprint (R113). -/
theorem memNext_readByte_other (s : State) {a : Word} (h : a ∉ s.storeFootprint) : s.memNext.readByte a = s.mem.readByte a := by
  unfold State.storeFootprint at h
  unfold State.memNext ExecuteMemoryLatch.memoryAfter
  split
  case isFalse => rfl
  case isTrue he =>
    rw [if_pos he] at h
    unfold storeOf
    split
    case h_1 hk =>
      simp only [hk, List.mem_cons, List.not_mem_nil, or_false, not_or] at h
      obtain ⟨h0, h1, h2, h3⟩ := h
      unfold Memory.storeWord
      rw [readByte_writeByte_other _ _ h3, readByte_writeByte_other _ _ h2, readByte_writeByte_other _ _ h1,
        readByte_writeByte_other _ _ h0]
    case h_2 hk =>
      simp only [hk, List.mem_singleton] at h
      exact readByte_writeByte_other _ _ h
    case h_3 => rfl

/-- The bytes of a word that is read (R42). -/
theorem readWord_byte (m : Memory) (a : Word) : ∀ k < 4,
    (m.readWord a).extractLsb' (8 * k) 8 = m.readByte (a + BitVec.ofNat 32 k) := by
  intro k hk
  apply BitVec.eq_of_toNat_eq
  unfold Memory.readWord
  rw [toNat_field, wordOfBytes_toNat]
  interval_cases k <;> simp <;> omega

-- What the next step reads, in the state that it makes.

section
variable {t u : State} (h : step t = .next u)
include h

theorem step_operandA : u.de.operandA = t.reg (rs1Of t.fd.instructionWord) := by
  rw [step_next_iff.1 h, State.cycle_de, FetchDecodeLatch.toDE_operandA, decode_rs1, State.reg]

theorem step_operandB : u.de.operandB = t.reg (rs2Of t.fd.instructionWord) := by
  rw [step_next_iff.1 h, State.cycle_de, FetchDecodeLatch.toDE_operandB, decode_rs2, State.reg]

theorem step_fetchedWord : u.fd.instructionWord = u.mem.readWord t.pc := by
  rw [step_next_iff.1 h, State.cycle_fd, State.cycle_mem, fetch_instructionWord]

theorem step_loadedValue (hread : t.em.control.memReadEnable = true) :
    u.mw.loadedValue = loadOf t.em.control.opKind u.mem t.em.aluResult := by
  rw [step_next_iff.1 h, State.cycle_mw, State.cycle_mem, ExecuteMemoryLatch.toMW_loadedValue, if_pos hread]

theorem step_readByte_other {a : Word} (ha : a ∉ t.storeFootprint) : u.mem.readByte a = t.mem.readByte a := by
  rw [step_next_iff.1 h, State.cycle_mem, memNext_readByte_other t ha]

end

-- What a byte of memory gives to the Fetch and the loads that cover it.

/-- A byte within a word that is read is a byte of that word. -/
theorem readWord_byte_toNat {m : Memory} {p c : Word} {b : Int} (hb : ((m.readByte c).toNat : Int) = b) :
    ∀ k < 4, p + BitVec.ofNat 32 k = c → (((m.readWord p).extractLsb' (8 * k) 8).toNat : Int) = b := by
  rintro k hk rfl
  rw [readWord_byte m p k hk, hb]

/-- A zero-extended byte has the byte's value (R163). -/
theorem loadOf_LBU_toNat {m : Memory} {c : Word} {b : Int} (hb : ((m.readByte c).toNat : Int) = b) :
    ((loadOf .LBU m c).toNat : Int) = b := by
  have hlt := (m.readByte c).isLt
  rw [loadOf, BitVec.toNat_setWidth]
  omega

/-- A sign-extended byte has the byte's signed value (R162). -/
theorem loadOf_LB_toInt {m : Memory} {c : Word} {b : Int} (hb : ((m.readByte c).toNat : Int) = b) :
    (loadOf .LB m c).toInt = if b < 128 then b else b - 256 := by
  rw [loadOf, BitVec.toInt_signExtend_of_le (by decide), toInt_by_sign]
  split <;> split <;> omega

-- Register writes and byte writes by the host (10_state.md R21; 20_memory.md R56).

theorem setRegister_zero (s : State) {v : Int} (h : isI32 v = true) : s.setRegister 0 v = .next s :=
  setRegister_next_iff.2 ⟨rfl, h, rfl⟩

theorem setRegister_reg {s t : State} {i v : Int} (h : s.setRegister i v = .next t) (r : RegIdx) :
    t.reg r = if r = BitVec.ofInt 5 i ∧ r ≠ 0 then BitVec.ofInt 32 v else s.reg r := by
  obtain ⟨-, -, rfl⟩ := setRegister_next_iff.1 h
  exact readReg_writeReg s.x _ r _

theorem setRegister_reg_same {s t : State} {i v : Int} (h : s.setRegister i v = .next t) (h1 : 1 ≤ i) :
    (t.reg (BitVec.ofInt 5 i)).toInt = v := by
  obtain ⟨hi, hv, -⟩ := setRegister_next_iff.1 h
  rw [setRegister_reg h, if_pos ⟨rfl, ofInt_ne_zero_of_isRegisterIndex hi h1⟩, toInt_ofInt_of_isI32 hv]

theorem setMemoryByte_readByte_same {s t : State} {a b : Int} (hw : s.mem.wf = true) (h : s.setMemoryByte a b = .next t) :
    t.mem.readByte (BitVec.ofInt 32 a) = BitVec.ofInt 8 b := by
  obtain ⟨-, -, rfl⟩ := setMemoryByte_next_iff.1 h
  exact readByte_writeByte_same _ _ hw

theorem setMemoryByte_readByte_toNat {s t : State} {a b : Int} (hw : s.mem.wf = true) (h : s.setMemoryByte a b = .next t) :
    ((t.mem.readByte (BitVec.ofInt 32 a)).toNat : Int) = b := by
  obtain ⟨-, hb, -⟩ := setMemoryByte_next_iff.1 h
  rw [setMemoryByte_readByte_same hw h, toNat_ofInt_of_isByteValue hb]

-- The obligations.

/-- Settles O19. -/
theorem zeroWire : Obligations.ZeroWire := by
  intro s
  refine ⟨readReg_zero s.x, ⟨_, step_eq s, commitWrite_storage_zero _ _, ?_⟩,
    fun v hlo hhi => setRegister_zero s ((isI32_iff v).2 ⟨hlo, hhi⟩)⟩
  rintro (hdisabled | hzero)
  · exact commitWrite_disabled s.x s.mw hdisabled
  · exact commitWrite_register_zero s.x s.mw hzero

/-- Settles O20, the count by induction on the number of steps. -/
theorem cyclesCountSteps : Obligations.CyclesCountSteps :=
  ⟨fun _ _ => rfl, runSteps_cycles, fun n s => ⟨_, step_eq s, step_with_cycles s n⟩⟩

/-- Settles O21: Decode marks exactly the nonzero words without a row of the opcode table. -/
theorem illegalSeenRule : Obligations.IllegalSeenRule := by
  refine ⟨fun _ _ => rfl, fun s => ⟨_, step_eq s, ?_, fun b => ⟨_, step_with_illegalSeen s b⟩⟩⟩
  rw [State.cycle_illegalSeen, Bool.or_eq_true, unrecognised_iff]

/-- What setRegister wrote is what getRegister and the next Decode read. -/
theorem setRegister_is_read {s t u : State} {i v : Int} (hstep : step t = .next u) (h : s.setRegister i v = .next t) :
    (1 ≤ i → t.getRegister i = .ok v) ∧ (∀ r : RegIdx, r ≠ BitVec.ofInt 5 i → t.reg r = s.reg r) ∧ t.mem = s.mem ∧
      (rs1Of s.fd.instructionWord = BitVec.ofInt 5 i → 1 ≤ i → u.de.operandA.toInt = v) ∧
      (rs2Of s.fd.instructionWord = BitVec.ofInt 5 i → 1 ≤ i → u.de.operandB.toInt = v) := by
  obtain ⟨hi, -, ht⟩ := setRegister_next_iff.1 h
  have hfd : t.fd = s.fd := by rw [ht]
  refine ⟨fun h1 => ?_, fun r hr => ?_, by rw [ht], fun hrs h1 => ?_, fun hrs h1 => ?_⟩
  · rw [State.getRegister, if_pos hi, setRegister_reg_same h h1]
  · rw [setRegister_reg h, if_neg (fun e => hr e.1)]
  · rw [step_operandA hstep, hfd, hrs, setRegister_reg_same h h1]
  · rw [step_operandB hstep, hfd, hrs, setRegister_reg_same h h1]

/-- Settles O48. -/
theorem hostWritesAreRead : Obligations.HostWritesAreRead := by
  intro s t u i v a b hw hstep
  refine ⟨setRegister_is_read hstep, fun h => ?_⟩
  have hsame := setMemoryByte_readByte_same hw h
  have hval := setMemoryByte_readByte_toNat hw h
  obtain ⟨ha, -, ht⟩ := setMemoryByte_next_iff.1 h
  have hpc : t.pc = s.pc := by rw [ht]
  have hem : t.em = s.em := by rw [ht]
  refine ⟨hval, ?_, fun c hc => ?_, by rw [ht], ?_, fun hstore => ?_⟩
  · rw [State.getMemoryByte, if_pos ha, hsame]
  · rw [ht, readByte_writeByte_other _ _ hc]
  · rw [step_next_iff.1 hstep, ht]
    rfl
  · have hfoot : t.storeFootprint = s.storeFootprint := by rw [State.storeFootprint, hem, State.storeFootprint]
    have hnext : ((u.mem.readByte (BitVec.ofInt 32 a)).toNat : Int) = b := by
      rw [step_readByte_other hstep (hfoot ▸ hstore), hval]
    rw [← hpc, ← hem, step_fetchedWord hstep]
    refine ⟨readWord_byte_toNat hnext, fun hr hk => ?_, fun hr hk hea => ?_, fun hr hk hea => ?_⟩
    · rw [step_loadedValue hstep hr, hk]
      exact readWord_byte_toNat hnext
    · rw [step_loadedValue hstep hr, hk, hea]
      exact loadOf_LBU_toNat hnext
    · rw [step_loadedValue hstep hr, hk, hea]
      exact loadOf_LB_toInt hnext

end Sys2Proof.Machine
end

section
/-! PROOFS. The memory family (20_memory.md): the little-endian accesses, and a stored word as the same step's Fetch and the next load read it (O8, O40,
O41), after the byte rules of a word store and the control record of a decoded latch. -/

namespace Sys2Proof.Machine

-- A word store, byte by byte (20_memory.md R42, R47).

section
variable {m : Memory} (a v : Word) (hw : m.wf = true)
include hw

theorem readByte_storeByte_same : (m.storeByte a v).readByte a = v.extractLsb' 0 8 := readByte_writeByte_same a _ hw

/-- The byte written first is under three later writes, each to another address, also across the top of the address space. -/
theorem readByte_storeWord_zero : (m.storeWord a v).readByte a = v.extractLsb' 0 8 := by
  unfold Memory.storeWord
  rw [readByte_writeByte_other _ _ (addr_ne_add a 3 (by decide)), readByte_writeByte_other _ _ (addr_ne_add a 2 (by decide)),
    readByte_writeByte_other _ _ (addr_ne_add a 1 (by decide)), readByte_writeByte_same a _ hw]

theorem readByte_storeWord_one : (m.storeWord a v).readByte (a + 1) = v.extractLsb' 8 8 := by
  unfold Memory.storeWord
  rw [readByte_writeByte_other _ _ (add_ne_add a 1 3 (by decide)), readByte_writeByte_other _ _ (add_ne_add a 1 2 (by decide)),
    readByte_writeByte_same _ _ (wf_writeByte _ _ hw)]

theorem readByte_storeWord_two : (m.storeWord a v).readByte (a + 2) = v.extractLsb' 16 8 := by
  unfold Memory.storeWord
  rw [readByte_writeByte_other _ _ (add_ne_add a 2 3 (by decide)),
    readByte_writeByte_same _ _ (wf_writeByte _ _ (wf_writeByte _ _ hw))]

theorem readByte_storeWord_three : (m.storeWord a v).readByte (a + 3) = v.extractLsb' 24 8 :=
  readByte_writeByte_same _ _ (wf_writeByte _ _ (wf_writeByte _ _ (wf_writeByte _ _ hw)))

/-- A word read at the address of a word store is the stored word. -/
theorem readWord_storeWord_same : (m.storeWord a v).readWord a = v := by
  rw [Memory.readWord, readByte_storeWord_zero a v hw, readByte_storeWord_one a v hw, readByte_storeWord_two a v hw,
    readByte_storeWord_three a v hw, wordOfBytes_extract]

end

theorem readByte_storeByte_other (m : Memory) {a b : Word} (v : Word) (h : b ≠ a) : (m.storeByte a v).readByte b = m.readByte b :=
  readByte_writeByte_other m _ h

theorem readByte_storeWord_other (m : Memory) {a b : Word} (v : Word) (h : b ∉ [a, a + 1, a + 2, a + 3]) :
    (m.storeWord a v).readByte b = m.readByte b := by
  simp only [List.mem_cons, List.not_mem_nil, or_false, not_or] at h
  obtain ⟨h0, h1, h2, h3⟩ := h
  unfold Memory.storeWord
  rw [readByte_writeByte_other _ _ h3, readByte_writeByte_other _ _ h2, readByte_writeByte_other _ _ h1,
    readByte_writeByte_other _ _ h0]

/-- The value of a word that is read, low-order byte first. -/
theorem readWord_toNat (m : Memory) (a : Word) : (m.readWord a).toNat =
    (m.readByte a).toNat + 256 * (m.readByte (a + 1)).toNat + 65536 * (m.readByte (a + 2)).toNat +
      16777216 * (m.readByte (a + 3)).toNat :=
  wordOfBytes_toNat _ _ _ _

-- The control record of a latch that Decode made (30_encoding.md R100).

/-- A control record of the table is fixed by its opKind and its destination. -/
theorem controlOf_of_controlOf (k : OpKind) (rd : RegIdx) : controlOf k (controlOf k rd).destReg = controlOf k rd := by
  cases k <;> rfl

/-- What Decode answers is the table's record of its opKind and its destination, the bubble of an unrecognised word included. -/
theorem decode_control (w : Word) :
    (decode w).control = controlOf (decode w).control.opKind (decode w).control.destReg := by
  cases h : kindOfWord w with
  | ok k => rw [decode_ok h, controlOf_opKind, controlOf_of_controlOf]
  | error u =>
    rw [decode_error h]
    rfl

/-- The same of a latch's record, once its opKind is known. -/
theorem control_eq_controlOf {c : ControlFields} {w : Word} {k : OpKind} (hc : c = (decode w).control) (hk : c.opKind = k) :
    c = controlOf k c.destReg := by
  rw [← hk, hc]
  exact decode_control w

-- A word store or a word load in the Memory stage (40_pipeline_engine.md R113).

/-- The memory image after a cycle with a word store in the Memory stage. -/
theorem memNext_SW {s : State} (he : s.em.control.memWriteEnable = true) (hk : s.em.control.opKind = .SW) :
    s.memNext = s.mem.storeWord s.em.aluResult s.em.storeValue := by
  rw [State.memNext, ExecuteMemoryLatch.memoryAfter, if_pos he, hk]
  rfl

/-- The Memory stage's word store and the word at its address in the state that the step makes. -/
theorem step_readWord_SW {s t : State} (h : step s = .next t) (hw : s.mem.wf = true) (he : s.em.control.memWriteEnable = true)
    (hk : s.em.control.opKind = .SW) : t.mem.readWord s.em.aluResult = s.em.storeValue := by
  rw [step_next_iff.1 h, State.cycle_mem, memNext_SW he hk, readWord_storeWord_same _ _ hw]

/-- A step whose Memory stage stores nothing keeps memory. -/
theorem step_mem_of_no_store {s t : State} (h : step s = .next t) (he : s.em.control.memWriteEnable = false) : t.mem = s.mem := by
  rw [step_next_iff.1 h, State.cycle_mem, State.memNext, memoryAfter_disabled _ _ he]

/-- A word load in Execute goes to the Memory stage with its effective address (43_load_store.md R161). -/
theorem step_aluResult_LW {s t : State} (h : step s = .next t) (hk : s.de.control.opKind = .LW) :
    t.em.aluResult = s.operandA + s.de.immediate := by
  rw [step_next_iff.1 h, State.cycle_em, DecodeExecuteLatch.toEM_aluResult, DecodeExecuteLatch.instr, hk]
  rfl

theorem step_em_control {s t : State} (h : step s = .next t) : t.em.control = s.de.control := by
  rw [step_next_iff.1 h, State.cycle_em, DecodeExecuteLatch.toEM_control]

-- The obligations.

/-- Settles O8. -/
theorem littleEndianAccesses : Obligations.LittleEndianAccesses := by
  intro m a v hw
  exact ⟨readWord_toNat m a, readByte_storeByte_same a v hw, fun _ => readByte_storeByte_other m v,
    readByte_storeWord_zero a v hw, readByte_storeWord_one a v hw, readByte_storeWord_two a v hw, readByte_storeWord_three a v hw,
    fun _ => readByte_storeWord_other m v, readWord_storeWord_same a v hw, fetch_instructionWord m a⟩

/-- Settles O40: Fetch reads the memory image that the step's own store made. -/
theorem storeSeenBySameStepFetch : Obligations.StoreSeenBySameStepFetch := by
  intro s hw he hk ha
  refine ⟨_, step_eq s, ?_, ?_⟩
  · rw [step_fetchedWord (step_eq s), ← ha, step_readWord_SW (step_eq s) hw he hk]
  · rw [State.cycle_de, FetchDecodeLatch.toDE_instructionWord]

/-- Settles O41: the first step stores the word, the second stores nothing and loads from the same address. -/
theorem loadBehindStore : Obligations.LoadBehindStore := by
  intro s s1 s2 hw hem hde hsw hlw haddr h1 h2
  have hstore : s.em.control.memWriteEnable = true := by rw [control_eq_controlOf hem hsw]; rfl
  have hload : s1.em.control = controlOf .LW s.de.control.destReg := (step_em_control h1).trans (control_eq_controlOf hde hlw)
  have haddr1 : s1.em.aluResult = s.em.aluResult := (step_aluResult_LW h1 hlw).trans haddr
  have hmem : s2.mem = s1.mem := step_mem_of_no_store h2 (by rw [hload]; rfl)
  calc s2.mw.loadedValue
      = loadOf s1.em.control.opKind s2.mem s1.em.aluResult := step_loadedValue h2 (by rw [hload]; rfl)
    _ = s1.mem.readWord s.em.aluResult := by rw [hload, hmem, haddr1]; rfl
    _ = s.em.storeValue := step_readWord_SW h1 hw hstore hsw

end Sys2Proof.Machine
end

section
/-! PROOFS. The word half of the encoding family (30_encoding.md): the value and the range of every immediate, the round trips between instruction and word
(R99, R102), Decode against the opcode table (R96 to R98), and the bubbles (O2 to O7, O22, O23, O36). -/

namespace Sys2Proof.Machine

-- The immediates as numbers (R71 to R75).

/-- A word is negative by its bit 31. -/
theorem bit31_iff (w : Word) : w.getLsbD 31 = true ↔ 2 ^ 31 ≤ w.toNat := by
  have h := BitVec.msb_eq_decide w
  rw [BitVec.msb_eq_getLsbD_last] at h
  rw [h, decide_eq_true_iff]

theorem immI_toInt (w : Word) : (immI w).toInt = (w.toNat / 2 ^ 20 : Int) - (if w.getLsbD 31 then 4096 else 0) := by
  have hw := w.isLt
  rw [immI, BitVec.toInt_signExtend_of_le (by decide), toInt_by_sign, toNat_field]
  simp only [bit31_iff]
  split_ifs <;> omega

theorem immS_toInt (w : Word) : (immS w).toInt =
    (w.toNat / 2 ^ 25 * 32 + w.toNat / 2 ^ 7 % 32 : Int) - (if w.getLsbD 31 then 4096 else 0) := by
  have hw := w.isLt
  rw [immS, BitVec.toInt_signExtend_of_le (by decide), toInt_by_sign]
  simp only [bit31_iff, toNat_append_eq, toNat_field]
  split_ifs <;> omega

theorem immB_toInt (w : Word) : (immB w).toInt =
    (w.toNat / 2 ^ 7 % 2 * 2048 + w.toNat / 2 ^ 25 % 64 * 32 + w.toNat / 2 ^ 8 % 16 * 2 : Int) -
      (if w.getLsbD 31 then 4096 else 0) := by
  have hw := w.isLt
  rw [immB, BitVec.toInt_signExtend_of_le (by decide), toInt_by_sign]
  simp only [bit31_iff, toNat_append_eq, toNat_field, BitVec.toNat_ofNat]
  push_cast
  split_ifs <;> omega

theorem immJ_toInt (w : Word) : (immJ w).toInt =
    (w.toNat / 2 ^ 12 % 256 * 4096 + w.toNat / 2 ^ 20 % 2 * 2048 + w.toNat / 2 ^ 21 % 1024 * 2 : Int) -
      (if w.getLsbD 31 then 1048576 else 0) := by
  have hw := w.isLt
  rw [immJ, BitVec.toInt_signExtend_of_le (by decide), toInt_by_sign]
  simp only [bit31_iff, toNat_append_eq, toNat_field, BitVec.toNat_ofNat]
  push_cast
  split_ifs <;> omega

theorem shamtOf_toNat (w : Word) : (shamtOf w).toNat = w.toNat / 2 ^ 20 % 32 := by
  exact (BitVec.toNat_setWidth_of_le (by decide)).trans (toNat_field w 20 5)

-- What Decode reads is in the range of R83.

theorem immFits12_iff (v : Word) : immFits12 v = true ↔ -2048 ≤ v.toInt ∧ v.toInt ≤ 2047 := decide_eq_true_iff

theorem shamtFits_iff (v : Word) : shamtFits v = true ↔ v.toNat ≤ 31 := decide_eq_true_iff

theorem branchFits_iff (v : Word) : branchFits v = true ↔ v.toInt % 2 = 0 ∧ -4096 ≤ v.toInt ∧ v.toInt ≤ 4094 := decide_eq_true_iff

theorem jumpFits_iff (v : Word) : jumpFits v = true ↔ v.toInt % 2 = 0 ∧ -1048576 ≤ v.toInt ∧ v.toInt ≤ 1048574 := decide_eq_true_iff

@[simp] theorem immFits12_immI (w : Word) : immFits12 (immI w) = true := by
  have hw := w.isLt
  rw [immFits12_iff, immI_toInt]
  simp only [bit31_iff]
  split_ifs <;> omega

@[simp] theorem immFits12_immS (w : Word) : immFits12 (immS w) = true := by
  have hw := w.isLt
  rw [immFits12_iff, immS_toInt]
  simp only [bit31_iff]
  split_ifs <;> omega

@[simp] theorem shamtFits_shamtOf (w : Word) : shamtFits (shamtOf w) = true := by
  rw [shamtFits_iff, shamtOf_toNat]
  omega

@[simp] theorem branchFits_immB (w : Word) : branchFits (immB w) = true := by
  have hw := w.isLt
  rw [branchFits_iff, immB_toInt]
  split_ifs <;> omega

@[simp] theorem jumpFits_immJ (w : Word) : jumpFits (immJ w) = true := by
  have hw := w.isLt
  rw [jumpFits_iff, immJ_toInt]
  split_ifs <;> omega

-- A word is the packing of what Decode reads (R99).

/-- The low bits of a sign extension are what was extended. -/
theorem toNat_signExtend_mod {n : Nat} (x : BitVec n) (h : n ≤ 32) : (x.signExtend 32).toNat % 2 ^ n = x.toNat := by
  have hbits : (x.signExtend 32).setWidth n = x := by
    ext i hi
    rw [BitVec.getElem_setWidth, BitVec.getLsbD_signExtend, if_pos hi, decide_eq_true (by omega), Bool.true_and,
      BitVec.getLsbD_eq_getElem hi]
  rw [← BitVec.toNat_setWidth, hbits]

theorem immI_toNat_mod (w : Word) : (immI w).toNat % 2 ^ 12 = w.toNat / 2 ^ 20 := by
  have hw := w.isLt
  rw [immI, toNat_signExtend_mod _ (by decide), toNat_field]
  omega

theorem immS_toNat_mod (w : Word) : (immS w).toNat % 2 ^ 12 = w.toNat / 2 ^ 25 * 2 ^ 5 + w.toNat / 2 ^ 7 % 2 ^ 5 := by
  have hw := w.isLt
  refine (toNat_signExtend_mod (n := 12) _ (by decide)).trans ?_
  simp only [toNat_append_eq, toNat_field]
  omega

theorem immB_toNat_mod (w : Word) : (immB w).toNat % 2 ^ 13 =
    w.toNat / 2 ^ 31 * 2 ^ 12 + w.toNat / 2 ^ 7 % 2 * 2 ^ 11 + w.toNat / 2 ^ 25 % 2 ^ 6 * 2 ^ 5 + w.toNat / 2 ^ 8 % 2 ^ 4 * 2 := by
  have hw := w.isLt
  refine (toNat_signExtend_mod (n := 13) _ (by decide)).trans ?_
  simp only [toNat_append_eq, toNat_field, BitVec.toNat_ofNat]
  omega

theorem immJ_toNat_mod (w : Word) : (immJ w).toNat % 2 ^ 21 =
    w.toNat / 2 ^ 31 * 2 ^ 20 + w.toNat / 2 ^ 12 % 2 ^ 8 * 2 ^ 12 + w.toNat / 2 ^ 20 % 2 * 2 ^ 11 + w.toNat / 2 ^ 21 % 2 ^ 10 * 2 := by
  have hw := w.isLt
  refine (toNat_signExtend_mod (n := 21) _ (by decide)).trans ?_
  simp only [toNat_append_eq, toNat_field, BitVec.toNat_ofNat]
  omega

theorem packI_immI (w : Word) : packI (immI w) (rs1Of w) (funct3Of w) (rdOf w) (opcodeOf w) = w := by
  apply BitVec.eq_of_toNat_eq
  have hw := w.isLt
  rw [packI_toNat, immI_toNat_mod]
  simp only [opcodeOf, rdOf, funct3Of, rs1Of, toNat_field]
  omega

/-- The opcode that a format fixes, as a number. -/
theorem toNat_mod_of_opcode {w : Word} {op : BitVec 7} (h : opcodeOf w = op) : w.toNat % 2 ^ 7 = op.toNat := by
  rw [← h, opcodeOf, toNat_field, Nat.pow_zero, Nat.div_one]

theorem packS_immS {w : Word} (h : opcodeOf w = 0b0100011) : packS (immS w) (rs2Of w) (rs1Of w) (funct3Of w) = w := by
  apply BitVec.eq_of_toNat_eq
  have hm := immS_toNat_mod w
  have ho : w.toNat % 2 ^ 7 = 0b0100011 := toNat_mod_of_opcode h
  have hhigh : (immS w).toNat / 2 ^ 5 % 2 ^ 7 = w.toNat / 2 ^ 25 := by omega
  have hlow : (immS w).toNat % 2 ^ 5 = w.toNat / 2 ^ 7 % 2 ^ 5 := by omega
  rw [packS_toNat, hhigh, hlow]
  simp only [funct3Of, rs1Of, rs2Of, toNat_field]
  clear hhigh hlow hm
  omega

/-- The fields of a B-immediate, from its value. -/
theorem fieldsB_of_mod {v a b c d : Nat} (hb : b < 2) (hc : c < 2 ^ 6) (hd : d < 2 ^ 4)
    (h : v % 2 ^ 13 = a * 2 ^ 12 + b * 2 ^ 11 + c * 2 ^ 5 + d * 2) :
    v / 2 ^ 12 % 2 = a ∧ v / 2 ^ 11 % 2 = b ∧ v / 2 ^ 5 % 2 ^ 6 = c ∧ v / 2 % 2 ^ 4 = d := by omega

/-- The fields of a J-immediate, from its value. -/
theorem fieldsJ_of_mod {v a b c d : Nat} (hb : b < 2 ^ 8) (hc : c < 2) (hd : d < 2 ^ 10)
    (h : v % 2 ^ 21 = a * 2 ^ 20 + b * 2 ^ 12 + c * 2 ^ 11 + d * 2) :
    v / 2 ^ 20 % 2 = a ∧ v / 2 ^ 12 % 2 ^ 8 = b ∧ v / 2 ^ 11 % 2 = c ∧ v / 2 % 2 ^ 10 = d := by omega

theorem packB_immB {w : Word} (h : opcodeOf w = 0b1100011) : packB (immB w) (rs2Of w) (rs1Of w) (funct3Of w) = w := by
  apply BitVec.eq_of_toNat_eq
  have hw := w.isLt
  have ho : w.toNat % 2 ^ 7 = 0b1100011 := toNat_mod_of_opcode h
  obtain ⟨h12, h11, h5, h1⟩ := fieldsB_of_mod (by omega) (by omega) (by omega) (immB_toNat_mod w)
  rw [packB_toNat, h12, h5, h1, h11]
  simp only [funct3Of, rs1Of, rs2Of, toNat_field]
  clear h12 h5 h1 h11
  omega

theorem packJ_immJ {w : Word} (h : opcodeOf w = 0b1101111) : packJ (immJ w) (rdOf w) = w := by
  apply BitVec.eq_of_toNat_eq
  have hw := w.isLt
  have ho : w.toNat % 2 ^ 7 = 0b1101111 := toNat_mod_of_opcode h
  obtain ⟨h20, h12, h11, h1⟩ := fieldsJ_of_mod (by omega) (by omega) (by omega) (immJ_toNat_mod w)
  rw [packJ_toNat, h20, h1, h11, h12]
  simp only [rdOf, toNat_field]
  clear h20 h1 h11 h12
  omega

-- Decode reads back what the encoder packs (R76 to R79).

/-- A value in the range of a 12-bit immediate is fixed by its low 12 bits. -/
theorem eq_of_immFits12 {u v : Word} (hu : immFits12 u = true) (hv : immFits12 v = true) (h : u.toNat % 2 ^ 12 = v.toNat % 2 ^ 12) :
    u = v := by
  rw [immFits12_iff, toInt_by_sign] at hu hv
  apply BitVec.eq_of_toNat_eq
  split_ifs at hu hv <;> omega

theorem eq_of_branchFits {u v : Word} (hu : branchFits u = true) (hv : branchFits v = true) (h : u.toNat % 2 ^ 13 = v.toNat % 2 ^ 13) :
    u = v := by
  rw [branchFits_iff, toInt_by_sign] at hu hv
  apply BitVec.eq_of_toNat_eq
  split_ifs at hu hv <;> omega

theorem eq_of_jumpFits {u v : Word} (hu : jumpFits u = true) (hv : jumpFits v = true) (h : u.toNat % 2 ^ 21 = v.toNat % 2 ^ 21) :
    u = v := by
  rw [jumpFits_iff, toInt_by_sign] at hu hv
  apply BitVec.eq_of_toNat_eq
  split_ifs at hu hv <;> omega

theorem immI_packI {v : Word} (rs1 f3 rd op) (h : immFits12 v = true) : immI (packI v rs1 f3 rd op) = v := by
  refine eq_of_immFits12 (immFits12_immI _) h ?_
  rw [immI_toNat_mod, packI_toNat]
  generalize v.toNat % 2 ^ 12 = a
  omega

theorem immS_packS {v : Word} (rs2 rs1 f3) (h : immFits12 v = true) : immS (packS v rs2 rs1 f3) = v := by
  refine eq_of_immFits12 (immFits12_immS _) h ?_
  have hhigh := Nat.mod_lt (v.toNat / 2 ^ 5) (show 2 ^ 7 > 0 by decide)
  have hlow := Nat.mod_lt v.toNat (show 2 ^ 5 > 0 by decide)
  have hv : v.toNat % 2 ^ 12 = v.toNat / 2 ^ 5 % 2 ^ 7 * 2 ^ 5 + v.toNat % 2 ^ 5 := by omega
  rw [immS_toNat_mod, packS_toNat, hv]
  generalize v.toNat / 2 ^ 5 % 2 ^ 7 = a at hhigh
  generalize v.toNat % 2 ^ 5 = b at hlow
  omega

theorem immB_packB {v : Word} (rs2 rs1 f3) (h : branchFits v = true) : immB (packB v rs2 rs1 f3) = v := by
  refine eq_of_branchFits (branchFits_immB _) h ?_
  have heven : v.toNat % 2 = 0 := by
    rw [branchFits_iff, toInt_by_sign] at h
    split_ifs at h <;> omega
  have h12 := Nat.mod_lt (v.toNat / 2 ^ 12) (show 2 > 0 by decide)
  have h5 := Nat.mod_lt (v.toNat / 2 ^ 5) (show 2 ^ 6 > 0 by decide)
  have h1 := Nat.mod_lt (v.toNat / 2) (show 2 ^ 4 > 0 by decide)
  have h11 := Nat.mod_lt (v.toNat / 2 ^ 11) (show 2 > 0 by decide)
  have hv : v.toNat % 2 ^ 13 = v.toNat / 2 ^ 12 % 2 * 2 ^ 12 + v.toNat / 2 ^ 11 % 2 * 2 ^ 11 + v.toNat / 2 ^ 5 % 2 ^ 6 * 2 ^ 5 +
      v.toNat / 2 % 2 ^ 4 * 2 := by omega
  rw [immB_toNat_mod, packB_toNat, hv]
  generalize v.toNat / 2 ^ 12 % 2 = a at h12
  generalize v.toNat / 2 ^ 5 % 2 ^ 6 = b at h5
  generalize v.toNat / 2 % 2 ^ 4 = c at h1
  generalize v.toNat / 2 ^ 11 % 2 = d at h11
  omega

theorem immJ_packJ {v : Word} (rd) (h : jumpFits v = true) : immJ (packJ v rd) = v := by
  refine eq_of_jumpFits (jumpFits_immJ _) h ?_
  have heven : v.toNat % 2 = 0 := by
    rw [jumpFits_iff, toInt_by_sign] at h
    split_ifs at h <;> omega
  have h20 := Nat.mod_lt (v.toNat / 2 ^ 20) (show 2 > 0 by decide)
  have h12 := Nat.mod_lt (v.toNat / 2 ^ 12) (show 2 ^ 8 > 0 by decide)
  have h1 := Nat.mod_lt (v.toNat / 2) (show 2 ^ 10 > 0 by decide)
  have h11 := Nat.mod_lt (v.toNat / 2 ^ 11) (show 2 > 0 by decide)
  have hv : v.toNat % 2 ^ 21 = v.toNat / 2 ^ 20 % 2 * 2 ^ 20 + v.toNat / 2 ^ 12 % 2 ^ 8 * 2 ^ 12 + v.toNat / 2 ^ 11 % 2 * 2 ^ 11 +
      v.toNat / 2 % 2 ^ 10 * 2 := by omega
  rw [immJ_toNat_mod, packJ_toNat, hv]
  generalize v.toNat / 2 ^ 20 % 2 = a at h20
  generalize v.toNat / 2 ^ 12 % 2 ^ 8 = b at h12
  generalize v.toNat / 2 % 2 ^ 10 = c at h1
  generalize v.toNat / 2 ^ 11 % 2 = d at h11
  omega

theorem shamtOf_packShift {v : Word} (f7 rs1 f3 rd) (h : shamtFits v = true) : shamtOf (packShift f7 v rs1 f3 rd) = v := by
  rw [shamtFits_iff] at h
  apply BitVec.eq_of_toNat_eq
  rw [packShift, shamtOf_toNat, packR_toNat, toNat_field]
  omega

@[simp] theorem rdOf_packShift (f7 v rs1 f3 rd) : rdOf (packShift f7 v rs1 f3 rd) = rd := rdOf_packR _ _ _ _ _ _

@[simp] theorem rs1Of_packShift (f7 v rs1 f3 rd) : rs1Of (packShift f7 v rs1 f3 rd) = rs1 := rs1Of_packR _ _ _ _ _ _

/-- The word of the instruction is of its kind (the laws KindRoundTrip, over every instruction). -/
theorem kindOfWord_encode : ∀ i : Instr, kindOfWord (encode i) = .ok i.kind
  | .add a b c => Laws.KindRoundTrip.add a b c
  | .sub a b c => Laws.KindRoundTrip.sub a b c
  | .sll a b c => Laws.KindRoundTrip.sll a b c
  | .slt a b c => Laws.KindRoundTrip.slt a b c
  | .sltu a b c => Laws.KindRoundTrip.sltu a b c
  | .xor a b c => Laws.KindRoundTrip.xor a b c
  | .srl a b c => Laws.KindRoundTrip.srl a b c
  | .sra a b c => Laws.KindRoundTrip.sra a b c
  | .or a b c => Laws.KindRoundTrip.or a b c
  | .and a b c => Laws.KindRoundTrip.and a b c
  | .addi a b c => Laws.KindRoundTrip.addi a b c
  | .slti a b c => Laws.KindRoundTrip.slti a b c
  | .sltiu a b c => Laws.KindRoundTrip.sltiu a b c
  | .xori a b c => Laws.KindRoundTrip.xori a b c
  | .ori a b c => Laws.KindRoundTrip.ori a b c
  | .andi a b c => Laws.KindRoundTrip.andi a b c
  | .slli a b c => Laws.KindRoundTrip.slli a b c
  | .srli a b c => Laws.KindRoundTrip.srli a b c
  | .srai a b c => Laws.KindRoundTrip.srai a b c
  | .lb a b c => Laws.KindRoundTrip.lb a b c
  | .lbu a b c => Laws.KindRoundTrip.lbu a b c
  | .lw a b c => Laws.KindRoundTrip.lw a b c
  | .sb a b c => Laws.KindRoundTrip.sb a b c
  | .sw a b c => Laws.KindRoundTrip.sw a b c
  | .beq a b c => Laws.KindRoundTrip.beq a b c
  | .bne a b c => Laws.KindRoundTrip.bne a b c
  | .blt a b c => Laws.KindRoundTrip.blt a b c
  | .bge a b c => Laws.KindRoundTrip.bge a b c
  | .bltu a b c => Laws.KindRoundTrip.bltu a b c
  | .bgeu a b c => Laws.KindRoundTrip.bgeu a b c
  | .jalr a b c => Laws.KindRoundTrip.jalr a b c
  | .jal a b => Laws.KindRoundTrip.jal a b
  | .bubble => Laws.KindRoundTrip.bubble

/-- The operands that Decode reads from the word of a well-formed instruction are the instruction's. -/
theorem build_encode {i : Instr} (h : i.wellFormed = true) :
    Instr.build i.kind (rdOf (encode i)) (rs1Of (encode i)) (rs2Of (encode i)) (immediateOf i.kind (encode i)) = i := by
  cases i
  case add | sub | sll | slt | sltu | xor | srl | sra | or | and => simp [encode, Instr.kind, Instr.build]
  case addi | slti | sltiu | xori | ori | andi | lb | lbu | lw | jalr =>
    simp [encode, Instr.kind, Instr.build, immediateOf, immI_packI _ _ _ _ h]
  case slli | srli | srai => simp [encode, Instr.kind, Instr.build, immediateOf, shamtOf_packShift _ _ _ _ h]
  case sb | sw => simp [encode, Instr.kind, Instr.build, immediateOf, immS_packS _ _ _ h]
  case beq | bne | blt | bge | bltu | bgeu => simp [encode, Instr.kind, Instr.build, immediateOf, immB_packB _ _ _ h]
  case jal => simp [encode, Instr.kind, Instr.build, immediateOf, immJ_packJ _ h]
  case bubble => rfl

-- A word of each format from its fields, the opcode and the function fields given.

theorem packR_of_fields {w : Word} {f7 f3 op} (h7 : funct7Of w = f7) (h3 : funct3Of w = f3) (ho : opcodeOf w = op) :
    packR f7 (rs2Of w) (rs1Of w) f3 (rdOf w) op = w := by
  subst h7 h3 ho
  exact packR_fields w

theorem packI_of_fields {w : Word} {f3 op} (h3 : funct3Of w = f3) (ho : opcodeOf w = op) :
    packI (immI w) (rs1Of w) f3 (rdOf w) op = w := by
  subst h3 ho
  exact packI_immI w

theorem packShift_of_fields {w : Word} {f7 f3} (h7 : funct7Of w = f7) (h3 : funct3Of w = f3) (ho : opcodeOf w = 0b0010011) :
    packShift f7 (shamtOf w) (rs1Of w) f3 (rdOf w) = w := by
  have hs : (shamtOf w).extractLsb' 0 5 = rs2Of w := by
    apply BitVec.eq_of_toNat_eq
    rw [rs2Of, toNat_field, toNat_field, shamtOf_toNat]
    omega
  rw [packShift, hs]
  exact packR_of_fields h7 h3 ho

theorem packS_of_fields {w : Word} {f3} (h3 : funct3Of w = f3) (ho : opcodeOf w = 0b0100011) :
    packS (immS w) (rs2Of w) (rs1Of w) f3 = w := by
  subst h3
  exact packS_immS ho

theorem packB_of_fields {w : Word} {f3} (h3 : funct3Of w = f3) (ho : opcodeOf w = 0b1100011) :
    packB (immB w) (rs2Of w) (rs1Of w) f3 = w := by
  subst h3
  exact packB_immB ho

/-- Encoding what Decode reads from a word of the opKind gives the word. -/
def Repacks (k : OpKind) (w : Word) : Prop :=
  encode (Instr.build k (rdOf w) (rs1Of w) (rs2Of w) (immediateOf k w)) = w

section
variable {w : Word} {r : OpcodeRow} (hf : acceptsFields r (opcodeOf w) (funct3Of w) (funct7Of w))
include hf

theorem repacks_of_rowsOp (hr : r ∈ opcodeRowsOp) : Repacks r.kind w := by
  obtain ⟨h7, h3, ho⟩ := hf
  fin_cases hr <;> exact packR_of_fields (h7 (by decide)) (h3 (by decide)) ho

theorem repacks_of_rowsOpImm (hr : r ∈ opcodeRowsOpImm) : Repacks r.kind w := by
  obtain ⟨h7, h3, ho⟩ := hf
  fin_cases hr
  iterate 6 exact packI_of_fields (h3 (by decide)) ho
  all_goals exact packShift_of_fields (h7 (by decide)) (h3 (by decide)) ho

theorem repacks_of_rowsMemory (hr : r ∈ opcodeRowsMemory) : Repacks r.kind w := by
  obtain ⟨-, h3, ho⟩ := hf
  fin_cases hr
  iterate 3 exact packI_of_fields (h3 (by decide)) ho
  all_goals exact packS_of_fields (h3 (by decide)) ho

theorem repacks_of_rowsControl (hr : r ∈ opcodeRowsControl) (hk : r.kind ≠ .BUBBLE) : Repacks r.kind w := by
  obtain ⟨-, h3, ho⟩ := hf
  fin_cases hr
  iterate 6 exact packB_of_fields (h3 (by decide)) ho
  · exact packJ_immJ ho
  · exact packI_of_fields (h3 (by decide)) ho
  · exact absurd rfl hk

theorem repacks_of_accepts (hr : r ∈ opcodeTable) (hk : r.kind ≠ .BUBBLE) : Repacks r.kind w := by
  simp only [opcodeTable, List.mem_append] at hr
  obtain ((hr | hr) | hr) | hr := hr
  · exact repacks_of_rowsOp hf hr
  · exact repacks_of_rowsOpImm hf hr
  · exact repacks_of_rowsMemory hf hr
  · exact repacks_of_rowsControl hf hr hk

end

/-- A word that has an opKind is the encoding of its instruction (R99). -/
theorem repacks_of_kindOfWord {w : Word} {k : OpKind} (h : kindOfWord w = .ok k) : Repacks k w := by
  unfold kindOfWord at h
  split at h
  case isTrue hz =>
    cases h
    exact hz.symm
  case isFalse =>
    obtain ⟨r, hr, rfl, hb, hacc⟩ := kindOfFields_hasRow h
    exact repacks_of_accepts hacc hr hb

-- The operand ranges of R83, by format.

/-- The values that the immediate field of a format holds; the register format has none. -/
def formatFits (f : Format) (v : Word) : Bool :=
  match f with
  | .registerRegister => true
  | .registerImmediate | .load | .store => immFits12 v
  | .shiftImmediate => shamtFits v
  | .branch => branchFits v
  | .jump => jumpFits v

theorem build_wellFormed (k : OpKind) (rd rs1 rs2 : RegIdx) (v : Word) :
    (Instr.build k rd rs1 rs2 v).wellFormed = (formatOf k).all (formatFits · v) := by
  cases k <;> rfl

theorem formatFits_immediateOf (k : OpKind) (w : Word) : (formatOf k).all (formatFits · (immediateOf k w)) = true := by
  cases k <;> simp [formatOf, formatFits, immediateOf]

-- The obligations.

/-- Settles O7. -/
theorem immediateValues : Obligations.ImmediateValues := fun w =>
  ⟨immI_toInt w, immS_toInt w, immB_toInt w, immJ_toInt w, shamtOf_toNat w⟩

/-- Settles O5: the word is of the instruction's kind, and its fields are the operands. -/
theorem decodeAfterEncode : Obligations.DecodeAfterEncode := fun i h => by
  rw [decodeWord_ok (kindOfWord_encode i), build_encode h]

/-- What decodes has an opKind and is built from the word's fields. -/
theorem decodeWord_eq_ok_iff {w : Word} {i : Instr} : decodeWord w = .ok i ↔
    ∃ k, kindOfWord w = .ok k ∧ Instr.build k (rdOf w) (rs1Of w) (rs2Of w) (immediateOf k w) = i := by
  unfold decodeWord
  split <;> simp_all

/-- Settles O6: the word is the packing of its fields, by the opcode table's row of its kind. -/
theorem encodeAfterDecode : Obligations.EncodeAfterDecode := fun w i h => by
  obtain ⟨k, hk, rfl⟩ := decodeWord_eq_ok_iff.1 h
  exact ⟨(build_wellFormed k _ _ _ _).trans (formatFits_immediateOf k w), repacks_of_kindOfWord hk⟩

/-- A word that matches no row has no opKind. -/
theorem kindOfWord_of_no_row {w : Word} (h : ∀ r ∈ opcodeTable, w &&& r.mask ≠ r.pattern) : ∃ u, kindOfWord w = .error u := by
  cases hk : kindOfWord w with
  | ok k =>
    obtain ⟨r, hr, -, hrow⟩ := row_of_kindOfWord hk
    exact absurd hrow (h r hr)
  | error u => exact ⟨u, rfl⟩

/-- Decode's answer on a word that matches no row. -/
theorem decode_of_no_row {w : Word} (h : ∀ r ∈ opcodeTable, w &&& r.mask ≠ r.pattern) :
    (decode w).control = ControlFields.bubble ∧ (decode w).immediate = 0 ∧ (decode w).unrecognised = true := by
  obtain ⟨u, hu⟩ := kindOfWord_of_no_row h
  rw [decode_error hu]
  exact ⟨rfl, rfl, rfl⟩

/-- Settles O2. -/
theorem decodeFollowsOpcodeTable : Obligations.DecodeFollowsOpcodeTable := by
  refine fun w => ⟨decode_rs1 w, decode_rs2 w, fun r hr h => ?_, decode_of_no_row⟩
  rw [decode_ok (kindOfWord_of_row hr h)]
  exact ⟨rfl, rfl, rfl⟩

/-- Two rows of one opKind are the same row. -/
theorem opcodeTable_kind_injective : ∀ r ∈ opcodeTable, ∀ q ∈ opcodeTable, r.kind = q.kind → r = q := by decide

/-- Settles O3: the word has the opKind of every row that it matches. -/
theorem atMostOneRowMatches : Obligations.AtMostOneRowMatches := by
  intro w r hr q hq h g
  have hkind := (kindOfWord_of_row hr h).symm.trans (kindOfWord_of_row hq g)
  exact opcodeTable_kind_injective r hr q hq (Except.ok.inj hkind)

/-- Settles O23. -/
theorem unrecognisedWordIsBubble : Obligations.UnrecognisedWordIsBubble := by
  intro s _ h
  obtain ⟨hc, hi, hu⟩ := decode_of_no_row h
  refine ⟨_, step_eq s, hc, hi, ?_⟩
  rw [State.cycle_illegalSeen, hu, Bool.or_true]

/-- Settles O22. -/
theorem zeroWordIsBubble : Obligations.ZeroWordIsBubble := by
  intro s h
  refine ⟨_, step_eq s, ?_, ?_, ?_⟩
  · rw [State.cycle_de, FetchDecodeLatch.toDE_control, h, decode_zero_control]
  · rw [State.cycle_de, FetchDecodeLatch.toDE_immediate, h, decode_zero_immediate]
  · rw [State.cycle_illegalSeen, h, decode_zero_unrecognised, Bool.or_false]

/-- Settles O4, row by row of R100. -/
theorem controlFieldsPerKind : Obligations.ControlFieldsPerKind := by
  refine ⟨?_, ?_, ?_, ?_, ?_, ?_, ?_, ?_, ?_⟩
  iterate 6 exact fun k hk => by fin_cases hk <;> exact fun _ _ => ⟨rfl, rfl⟩
  all_goals exact fun _ _ => ⟨rfl, rfl⟩

-- A pipeline that only bubbles enter (40_pipeline_engine.md R121).

/-- Execute, Memory and Writeback hold bubbles, whatever word stands in FD. -/
structure Idle (s : State) : Prop where
  de : s.de.control = ControlFields.bubble
  em : s.em.control = ControlFields.bubble
  mw : s.mw.control = ControlFields.bubble

/-- The words on their way to Decode: the one in FD, then those at the pc and after it. -/
def wordAhead (s : State) : Nat → Word
  | 0 => s.fd.instructionWord
  | k + 1 => s.mem.readWord (s.pc + BitVec.ofNat 32 (4 * k))

/-- One step of an idle pipeline fetches and decodes, and does nothing else. -/
theorem idle_step {s : State} (h : Idle s) : ∃ t, step s = .next t ∧ t.x = s.x ∧ t.mem = s.mem ∧ t.pc = s.pc + 4 ∧
    (∀ k, wordAhead t k = wordAhead s (k + 1)) ∧ ((decode (wordAhead s 0)).control = ControlFields.bubble → Idle t) := by
  have hx : s.xNext = s.x := commitWrite_disabled _ _ (by rw [h.mw]; rfl)
  have hmem : s.memNext = s.mem := memoryAfter_disabled _ _ (by rw [h.em]; rfl)
  refine ⟨_, step_eq s, ?_⟩
  rw [execResult_bubble s h.de]
  refine ⟨hx, hmem, rfl, fun k => ?_, fun hd => ⟨hd, h.de, h.em⟩⟩
  cases k with
  | zero => simp [wordAhead, hmem]
  | succ k =>
    have haddr : s.pc + 4 + BitVec.ofNat 32 (4 * k) = s.pc + BitVec.ofNat 32 (4 * (k + 1)) := by bv_omega
    calc wordAhead (s.cycle (.value 0)) (k + 1)
        = s.memNext.readWord (s.pc + 4 + BitVec.ofNat 32 (4 * k)) := rfl
      _ = wordAhead s (k + 1 + 1) := by rw [hmem, haddr, wordAhead]

/-- While no instruction enters an idle pipeline, its steps change no register and no byte. -/
theorem runSteps_idle (n : Nat) : ∀ s : State, Idle s → (∀ k < n, (decode (wordAhead s k)).control = ControlFields.bubble) →
    ∃ t, runSteps (n + 1) s = .next t ∧ t.x = s.x ∧ t.mem = s.mem ∧ t.pc = s.pc + BitVec.ofNat 32 (4 * (n + 1)) := by
  induction n with
  | zero =>
    intro s h _
    obtain ⟨t, hstep, hx, hmem, hpc, -, -⟩ := idle_step h
    exact ⟨t, by rw [runSteps, hstep]; rfl, hx, hmem, hpc⟩
  | succ n ih =>
    intro s h hwords
    obtain ⟨s1, hstep, hx, hmem, hpc, hahead, hidle⟩ := idle_step h
    have hrest : ∀ k < n, (decode (wordAhead s1 k)).control = ControlFields.bubble := fun k hk => by
      rw [hahead]
      exact hwords (k + 1) (by omega)
    obtain ⟨t, hrun, hx', hmem', hpc'⟩ := ih s1 (hidle (hwords 0 (by omega))) hrest
    refine ⟨t, by rw [runSteps, hstep]; exact hrun, hx'.trans hx, hmem'.trans hmem, ?_⟩
    rw [hpc', hpc]
    bv_omega

/-- Settles O36: the words ahead of the pipeline, which is empty, are four bubbles. -/
theorem bubbleAlone : Obligations.BubbleAlone := by
  intro s h
  have hwords : ∀ k < 4, (decode (wordAhead s k)).control = ControlFields.bubble := by
    intro k hk
    interval_cases k
    · exact h.fdEmpty
    · rw [wordAhead, Nat.mul_zero, BitVec.add_zero, h.word, decode_zero_control]
    · exact (congrArg (decode · |>.control) h.slot1).trans decode_zero_control
    · exact (congrArg (decode · |>.control) h.slot2).trans decode_zero_control
  obtain ⟨t, hrun, hx, hmem, hpc⟩ := runSteps_idle 4 s ⟨h.deEmpty, h.emEmpty, h.mwEmpty⟩ hwords
  exact ⟨t, hrun, fun r => by rw [State.reg, hx, State.reg], fun a => by rw [hmem], hpc⟩

end Sys2Proof.Machine
end

section
/-! PROOFS. The Encoder half of the encoding family (30_encoding.md): what a line spells and its checks in order, programs, labels and pseudo-instructions
(O52 to O59), after the lemmas about each check's answer. -/

namespace Sys2Proof.Machine

open Reference

-- Tables of texts.

theorem lookupText_eq_none_iff {α : Type} {t : Text} {table : List (Text × α)} :
    lookupText t table = none ↔ t ∉ table.map (fun e => e.1) := by
  induction table with
  | nil => simp [lookupText]
  | cons e rest ih =>
    rw [lookupText, List.map_cons, List.mem_cons, not_or, ← ih, eq_comm (a := t)]
    split <;> simp_all

theorem mem_of_lookupText {α : Type} {t : Text} {a : α} {table : List (Text × α)} (h : lookupText t table = some a) :
    (t, a) ∈ table := by
  induction table with
  | nil => cases h
  | cons e rest ih =>
    rw [lookupText] at h
    split at h
    case isTrue he =>
      cases h
      exact he ▸ List.mem_cons_self
    case isFalse => exact List.mem_cons_of_mem e (ih h)

-- The value that an operand check lets through is in its range (R83).

theorem toInt_ofInt_of_range {v : Int} (hlo : -2147483648 ≤ v) (hhi : v ≤ 2147483647) : (BitVec.ofInt 32 v).toInt = v :=
  toInt_ofInt_of_isI32 ((isI32_iff v).2 ⟨hlo, hhi⟩)

theorem immFits12_of_immediateOperand {t : Text} {w : Word} (h : immediateOperand (-2048) 2047 t = .ok w) : immFits12 w = true := by
  obtain ⟨v, -, hlo, hhi, rfl⟩ := immediateOperand_ok_iff.1 h
  rw [immFits12_iff, toInt_ofInt_of_range (by omega) (by omega)]
  exact ⟨hlo, hhi⟩

theorem shamtFits_of_immediateOperand {t : Text} {w : Word} (h : immediateOperand 0 31 t = .ok w) : shamtFits w = true := by
  obtain ⟨v, -, hlo, hhi, rfl⟩ := immediateOperand_ok_iff.1 h
  rw [shamtFits_iff, BitVec.toNat_ofInt]
  omega

theorem branchFits_ofInt {v : Int} (heven : v % 2 = 0) (hlo : -4096 ≤ v) (hhi : v ≤ 4094) : branchFits (BitVec.ofInt 32 v) = true := by
  rw [branchFits_iff, toInt_ofInt_of_range (by omega) (by omega)]
  exact ⟨heven, hlo, hhi⟩

theorem jumpFits_ofInt {v : Int} (heven : v % 2 = 0) (hlo : -1048576 ≤ v) (hhi : v ≤ 1048574) : jumpFits (BitVec.ofInt 32 v) = true := by
  rw [jumpFits_iff, toInt_ofInt_of_range (by omega) (by omega)]
  exact ⟨heven, hlo, hhi⟩

theorem branchFits_of_targetOperand {address : Word} {sym : SymbolTable} {t : Text} {w : Word}
    (h : targetOperand (-4096) 4094 address sym t = .ok w) : branchFits w = true := by
  obtain ⟨v, -, heven, hlo, hhi, rfl⟩ := targetOperand_ok_iff.1 h
  exact branchFits_ofInt heven hlo hhi

theorem jumpFits_of_targetOperand {address : Word} {sym : SymbolTable} {t : Text} {w : Word}
    (h : targetOperand (-1048576) 1048574 address sym t = .ok w) : jumpFits w = true := by
  obtain ⟨v, -, heven, hlo, hhi, rfl⟩ := targetOperand_ok_iff.1 h
  exact jumpFits_ofInt heven hlo hhi

-- The instruction that a line stands for is well-formed.

/-- The instruction of a mnemonic's opKind with an immediate that its format holds. -/
theorem build_of_format {k : OpKind} {f : Format} {v : Word} (rd rs1 rs2 : RegIdx) (hf : formatOf k = some f)
    (hv : formatFits f v = true) : (Instr.build k rd rs1 rs2 v).wellFormed = true ∧ Instr.build k rd rs1 rs2 v ≠ .bubble := by
  refine ⟨by rw [build_wellFormed, hf]; exact hv, fun hb => ?_⟩
  have hk : k = .BUBBLE := (build_kind k rd rs1 rs2 v).symm.trans (congrArg Instr.kind hb)
  subst hk
  cases hf

theorem parseOperands_ok {k : OpKind} {address : Word} {sym : SymbolTable} {ops : List Text} {i : Instr}
    (h : parseOperands k address sym ops = .ok i) : i.wellFormed = true ∧ i ≠ .bubble := by
  unfold parseOperands at h
  split at h
  case h_8 => cases h
  all_goals
    rename_i hf
    simp only [check_bind_ok] at h
  case h_1 =>
    obtain ⟨_, -, _, -, _, -, hi⟩ := h
    cases hi
    exact build_of_format _ _ _ hf rfl
  case h_2 | h_4 | h_5 =>
    obtain ⟨_, -, _, -, _, hv, hi⟩ := h
    cases hi
    exact build_of_format _ _ _ hf (immFits12_of_immediateOperand hv)
  case h_3 =>
    obtain ⟨_, -, _, -, _, hv, hi⟩ := h
    cases hi
    exact build_of_format _ _ _ hf (shamtFits_of_immediateOperand hv)
  case h_6 =>
    obtain ⟨_, -, _, -, _, hv, hi⟩ := h
    cases hi
    exact build_of_format _ _ _ hf (branchFits_of_targetOperand hv)
  case h_7 =>
    obtain ⟨_, -, _, hv, hi⟩ := h
    cases hi
    exact build_of_format _ _ _ hf (jumpFits_of_targetOperand hv)

theorem assemble_ok {pi : ParsedInstruction} {sym : SymbolTable} {i : Instr} (h : assemble pi sym = .ok i) :
    i.wellFormed = true ∧ i ≠ .bubble := by
  unfold assemble at h
  split at h
  case h_1 => cases h
  case h_2 =>
    split at h
    case isTrue => exact parseOperands_ok h
    case isFalse => cases h

-- The instruction that a line stands for is the one it spells.

theorem spells_of_assemble {pi : ParsedInstruction} {sym : SymbolTable} {i : Instr} (h : assemble pi sym = .ok i) : Spells pi sym i where
  register l hl a b c hm ho := by
    rw [assemble_registerLine hl hm ho] at h
    simp only [check_bind_ok, registerOperand_ok_iff] at h
    obtain ⟨rd, hrd, rs1, hrs1, rs2, hrs2, hi⟩ := h
    cases hi
    exact ⟨rd, rs1, rs2, hrd, hrs1, hrs2, rfl⟩
  immediate l hl a b c hm ho := by
    rw [assemble_immediateLine hl hm ho] at h
    simp only [check_bind_ok, registerOperand_ok_iff, immediateOperand_ok_iff] at h
    obtain ⟨r, hr, rs1, hrs1, _, ⟨v, hv, hlo, hhi, rfl⟩, hi⟩ := h
    cases hi
    exact ⟨r, rs1, v, hr, hrs1, hv, hlo, hhi, rfl⟩
  branch l hl a b c hm ho := by
    rw [assemble_branchLine hl hm ho] at h
    simp only [check_bind_ok, registerOperand_ok_iff, targetOperand_ok_iff] at h
    obtain ⟨rs1, hrs1, rs2, hrs2, _, ⟨v, hv, heven, hlo, hhi, rfl⟩, hi⟩ := h
    cases hi
    exact ⟨rs1, rs2, v, hrs1, hrs2, hv, heven, hlo, hhi, rfl⟩
  jump a b hm ho := by
    rw [assemble_jal hm ho] at h
    simp only [check_bind_ok, registerOperand_ok_iff, targetOperand_ok_iff] at h
    obtain ⟨rd, hrd, _, ⟨v, hv, heven, hlo, hhi, rfl⟩, hi⟩ := h
    cases hi
    exact ⟨rd, v, hrd, hv, heven, hlo, hhi, rfl⟩
  jumpLink a hm ho := by
    rw [assemble_jal_link hm ho] at h
    simp only [check_bind_ok, targetOperand_ok_iff] at h
    obtain ⟨_, ⟨v, hv, heven, hlo, hhi, rfl⟩, hi⟩ := h
    cases hi
    exact ⟨v, hv, heven, hlo, hhi, rfl⟩

/-- Settles O52. -/
theorem encoderWordsDecode : Obligations.EncoderWordsDecode := by
  refine fun pi sym => ⟨fun w => encodeParsed_ok_iff.1, fun i h => ?_⟩
  obtain ⟨hwf, hne⟩ := assemble_ok h
  exact ⟨spells_of_assemble h, hwf, hne, encodeParsed_of_ok h, decodeAfterEncode i hwf, by rw [decode_ok (kindOfWord_encode i)]⟩

-- Programs (R61).

theorem encodeProgram_cons_ok {sym : SymbolTable} {pi : ParsedInstruction} {rest : List ParsedInstruction} {words : WordMap} :
    encodeProgram sym (pi :: rest) = .ok words ↔
      ∃ w ws, encodeParsed pi sym = .ok w ∧ encodeProgram sym rest = .ok ws ∧ words = (pi.address, w) :: ws := by
  rw [encodeProgram]
  cases encodeParsed pi sym with
  | error => simp
  | ok w => cases encodeProgram sym rest with
    | error => simp
    | ok ws => simp [eq_comm]

theorem encodeProgram_cons_error {sym : SymbolTable} {pi : ParsedInstruction} {rest : List ParsedInstruction} {e : EncodingError} :
    encodeProgram sym (pi :: rest) = .error e ↔
      encodeParsed pi sym = .error e ∨ ∃ w, encodeParsed pi sym = .ok w ∧ encodeProgram sym rest = .error e := by
  rw [encodeProgram]
  cases encodeParsed pi sym with
  | error => simp
  | ok w => cases encodeProgram sym rest with
    | error => simp
    | ok ws => simp

theorem encodeProgram_ok {sym : SymbolTable} {program : List ParsedInstruction} : ∀ {words : WordMap},
    encodeProgram sym program = .ok words →
    words.map (fun e => e.1) = program.map (fun pi => pi.address) ∧
      program.map (fun pi => encodeParsed pi sym) = words.map (fun e => .ok e.2) := by
  induction program with
  | nil =>
    intro words h
    cases h
    exact ⟨rfl, rfl⟩
  | cons pi rest ih =>
    intro words h
    obtain ⟨w, ws, hw, hws, rfl⟩ := encodeProgram_cons_ok.1 h
    obtain ⟨haddr, hwords⟩ := ih hws
    simp [haddr, hw, hwords]

theorem encodeProgram_error {sym : SymbolTable} {program : List ParsedInstruction} {e : EncodingError}
    (h : encodeProgram sym program = .error e) :
    ∃ before pi after, program = before ++ pi :: after ∧ (∀ q ∈ before, ∃ w, encodeParsed q sym = .ok w) ∧
      encodeParsed pi sym = .error e := by
  induction program with
  | nil => cases h
  | cons pi rest ih =>
    rcases encodeProgram_cons_error.1 h with he | ⟨w, hw, hrest⟩
    · exact ⟨[], pi, rest, rfl, by simp, he⟩
    · obtain ⟨before, q, after, rfl, hok, he⟩ := ih hrest
      exact ⟨pi :: before, q, after, rfl, List.forall_mem_cons.2 ⟨⟨w, hw⟩, hok⟩, he⟩

/-- Settles O53, by induction on the program. -/
theorem programEncodingAllOrNothing : Obligations.ProgramEncodingAllOrNothing :=
  fun sym program => ⟨fun _ => encodeProgram_ok, fun _ => encodeProgram_error, fun p e h => by rw [boot, h]⟩

-- The mnemonic and the operand count (R85, R86).

/-- The operand counts of a mnemonic, as a list. -/
def mnemonicCounts : Mnemonic → List Nat
  | .core .JAL => [1, 2]
  | .core _ => [3]
  | .li | .mv | .beqz | .bnez => [2]
  | .j => [1]
  | .nop | .ret => [0]

theorem takes_iff (m : Mnemonic) (n : Nat) : m.takes n = true ↔ n ∈ mnemonicCounts m := by
  cases m with
  | core k => cases k <;> simp [Mnemonic.takes, mnemonicCounts]
  | _ => simp [Mnemonic.takes, mnemonicCounts]

/-- The model's table of mnemonics lists those of R86 alone. -/
theorem mnemonicTable_listed : ∀ e ∈ mnemonicTable, e.1 ∈ mnemonics.map (fun m => m.1) := by decide

/-- The model's table gives each mnemonic the operand counts of R86. -/
theorem mnemonicTable_counts : ∀ m ∈ mnemonics, (lookupText m.1 mnemonicTable).map mnemonicCounts = some m.2 := by decide

section
variable {pi : ParsedInstruction} {sym : SymbolTable} {a b c : Text}

theorem assemble_unlisted (h : pi.mnemonic ∉ mnemonics.map (fun m => m.1)) : assemble pi sym = .error ⟨.E_MNEMONIC, none⟩ := by
  have hnone : lookupText pi.mnemonic mnemonicTable = none := by
    rw [lookupText_eq_none_iff, List.mem_map]
    rintro ⟨e, he, ht⟩
    exact h (ht ▸ mnemonicTable_listed e he)
  rw [assemble, hnone]

theorem assemble_arity {m : Text × List Nat} (hm : m ∈ mnemonics) (ht : pi.mnemonic = m.1) (hn : pi.operands.length ∉ m.2) :
    assemble pi sym = .error ⟨.E_ARITY, none⟩ := by
  obtain ⟨k, hk, hcounts⟩ := Option.map_eq_some_iff.1 (mnemonicTable_counts m hm)
  rw [← ht] at hk
  rw [← hcounts, ← takes_iff] at hn
  simp only [assemble, hk, if_neg hn]

/-- The mnemonics of the lines of three operands. -/
abbrev threeOperandMnemonics : List Text :=
  registerLines.map (fun l => l.1) ++ immediateLines.map (fun l => l.mnemonic) ++ branchLines.map (fun l => l.1)

/-- Every line of three operands checks its first two as registers, from left to right. -/
theorem assemble_threeOperands (hm : pi.mnemonic ∈ threeOperandMnemonics) (ho : pi.operands = [a, b, c]) :
    ∃ f : RegIdx → RegIdx → Except CheckFailure Instr,
      assemble pi sym = registerOperand (trimText a) >>= fun x => registerOperand (trimText b) >>= f x := by
  simp only [threeOperandMnemonics, List.mem_append, List.mem_map] at hm
  obtain (⟨l, hl, hm⟩ | ⟨l, hl, hm⟩) | ⟨l, hl, hm⟩ := hm
  · exact ⟨_, assemble_registerLine hl hm.symm ho⟩
  · exact ⟨_, assemble_immediateLine hl hm.symm ho⟩
  · exact ⟨_, assemble_branchLine hl hm.symm ho⟩

end

/-- Settles O54. -/
theorem encoderCheckOrder : Obligations.EncoderCheckOrder := by
  refine fun pi sym => ⟨fun h => encodeParsed_of_error (assemble_unlisted h),
    fun m hm ht hn => encodeParsed_of_error (assemble_arity hm ht hn), fun a b c ho hm => ?_, fun l hl a b c hm ho ha hb hc => ?_,
    fun a b hm ho ha => ?_⟩
  · obtain ⟨f, hf⟩ := assemble_threeOperands (sym := sym) hm ho
    refine ⟨fun ha => encodeParsed_of_error (e := ⟨.E_REGISTER, some (trimText a)⟩) ?_,
      fun ha hb => encodeParsed_of_error (e := ⟨.E_REGISTER, some (trimText b)⟩) ?_⟩
    · rw [hf, registerOperand_none ha, check_bind_error]
    · obtain ⟨x, hx⟩ := Option.ne_none_iff_exists'.1 ha
      rw [hf, registerOperand_some hx, check_ok_bind, registerOperand_none hb, check_bind_error]
  · obtain ⟨x, hx⟩ := Option.ne_none_iff_exists'.1 ha
    obtain ⟨y, hy⟩ := Option.ne_none_iff_exists'.1 hb
    refine encodeParsed_of_error (e := ⟨.E_REGISTER, some (trimText c)⟩) ?_
    rw [assemble_registerLine hl hm ho, registerOperand_some hx, registerOperand_some hy, registerOperand_none hc]
    rfl
  · refine encodeParsed_of_error (e := ⟨.E_REGISTER, some (trimText a)⟩) ?_
    rw [assemble_jal hm ho, registerOperand_none ha]
    rfl

-- Literals (R82, R83).

section
variable {lo hi v : Int} {t : Text}

theorem immediateOperand_no_literal (h : parseLiteral t = none) : immediateOperand lo hi t = .error ⟨.E_IMM_SYNTAX, some t⟩ := by
  rw [immediateOperand, h]

theorem immediateOperand_outside (h : parseLiteral t = some v) (hv : ¬(lo ≤ v ∧ v ≤ hi)) :
    immediateOperand lo hi t = .error ⟨.E_RANGE, some t⟩ := by
  simp only [immediateOperand, h, if_neg hv]

theorem immediateOperand_value (h : parseLiteral t = some v) (hv : lo ≤ v ∧ v ≤ hi) :
    immediateOperand lo hi t = .ok (BitVec.ofInt 32 v) := by
  simp only [immediateOperand, h, if_pos hv]

end

/-- What comes of a line whose registers have passed is what its literal makes of it. -/
theorem encodeParsed_literalOutcome {l : ImmediateLine} {r rs1 : RegIdx} {pi : ParsedInstruction} {sym : SymbolTable} {t : Text}
    (h : assemble pi sym = immediateOperand l.lo l.hi t >>= fun v => .ok (l.instr r rs1 v)) :
    encodeParsed pi sym = literalOutcome l r rs1 pi t := by
  unfold literalOutcome
  split
  case h_1 hv =>
    exact encodeParsed_of_error (h.trans (by rw [immediateOperand_no_literal hv, check_bind_error]))
  case h_2 v hv =>
    split
    case isTrue hr =>
      exact encodeParsed_of_error (h.trans (by rw [immediateOperand_outside hv (by omega), check_bind_error]))
    case isFalse hr =>
      exact encodeParsed_of_ok (h.trans (by rw [immediateOperand_value hv (by omega), check_ok_bind]))

/-- Settles O55. -/
theorem immediateRangeCheck : Obligations.ImmediateRangeCheck := by
  refine ⟨fun pi sym l hl a b c r rs1 hm ho ha hb => encodeParsed_literalOutcome ?_, fun lo hi t hlo hhi =>
    ⟨immediateOperand_no_literal, fun v => immediateOperand_outside, fun v hv h1 h2 => ⟨_, immediateOperand_value hv ⟨h1, h2⟩,
      toInt_ofInt_of_range (by omega) (by omega)⟩⟩⟩
  rw [assemble_immediateLine hl hm ho, registerOperand_some ha, registerOperand_some hb]
  rfl

-- Targets (R80, R83).

section
variable {lo hi v : Int} {address : Word} {sym : SymbolTable} {t : Text}

theorem targetOffset_label {target : Word} (h : lookupText t sym = some target) :
    targetOffset address sym t = some ((target.toNat : Int) - (address.toNat : Int)) := by
  rw [targetOffset, h]

theorem targetOffset_literal (h : lookupText t sym = none) : targetOffset address sym t = parseLiteral t := by
  rw [targetOffset, h]

theorem targetOperand_no_target (h : targetOffset address sym t = none) :
    targetOperand lo hi address sym t = .error ⟨.E_SYMBOL, some t⟩ := by
  rw [targetOperand, h]

theorem targetOperand_odd (h : targetOffset address sym t = some v) (hv : v % 2 = 1) :
    targetOperand lo hi address sym t = .error ⟨.E_OFFSET_ALIGN, some t⟩ := by
  simp only [targetOperand, h, if_pos (show v % 2 ≠ 0 by omega)]

theorem targetOperand_outside (h : targetOffset address sym t = some v) (heven : v % 2 = 0) (hv : ¬(lo ≤ v ∧ v ≤ hi)) :
    targetOperand lo hi address sym t = .error ⟨.E_RANGE, some t⟩ := by
  simp only [targetOperand, h, if_neg (not_not.2 heven), if_neg hv]

theorem targetOperand_value (h : targetOffset address sym t = some v) (heven : v % 2 = 0) (hv : lo ≤ v ∧ v ≤ hi) :
    targetOperand lo hi address sym t = .ok (BitVec.ofInt 32 v) :=
  targetOperand_ok_iff.2 ⟨v, h, heven, hv.1, hv.2, rfl⟩

end

/-- What comes of a line whose registers have passed is what its target makes of it. -/
theorem encodeParsed_targetOutcome {lo hi : Int} {instr : Word → Instr} {pi : ParsedInstruction} {sym : SymbolTable} {t : Text}
    (h : assemble pi sym = targetOperand lo hi pi.address sym t >>= fun v => .ok (instr v)) :
    encodeParsed pi sym = targetOutcome lo hi instr pi sym t := by
  unfold targetOutcome
  split
  case h_1 hv => exact encodeParsed_of_error (h.trans (by rw [targetOperand_no_target hv, check_bind_error]))
  case h_2 v hv =>
    split_ifs with hodd hr
    · exact encodeParsed_of_error (h.trans (by rw [targetOperand_odd hv hodd, check_bind_error]))
    · exact encodeParsed_of_error (h.trans (by rw [targetOperand_outside hv (by omega) (by omega), check_bind_error]))
    · exact encodeParsed_of_ok (h.trans (by rw [targetOperand_value hv (by omega) (by omega), check_ok_bind]))

/-- Settles O57. -/
theorem targetChecks : Obligations.TargetChecks := by
  refine ⟨fun pi sym => ⟨fun l hl a b c rs1 rs2 hm ho ha hb => encodeParsed_targetOutcome ?_,
    fun a b rd hm ho ha => encodeParsed_targetOutcome ?_, fun a hm ho => encodeParsed_targetOutcome (assemble_jal_link hm ho)⟩,
    fun lo hi address sym t hlo hhi => ⟨fun hs hl => targetOperand_no_target ((targetOffset_literal hs).trans hl),
      fun v => targetOperand_odd, fun v => targetOperand_outside,
      fun v hv heven h1 h2 => ⟨_, targetOperand_value hv heven ⟨h1, h2⟩, toInt_ofInt_of_range (by omega) (by omega)⟩,
      fun target => targetOffset_label, fun v hs hl => (targetOffset_literal hs).trans hl⟩⟩
  · rw [assemble_branchLine hl hm ho, registerOperand_some ha, registerOperand_some hb]
    rfl
  · rw [assemble_jal hm ho, registerOperand_some ha]
    rfl

-- The offset in the word of a branch or a jump (R80).

/-- Every branch is packed in the B format. -/
theorem encode_branchLine : ∀ l ∈ branchLines, ∃ f3, ∀ rs1 rs2 v, encode (l.2 rs1 rs2 v) = packB v rs2 rs1 f3 := by
  intro l hl
  fin_cases hl <;> exact ⟨_, fun _ _ _ => rfl⟩

theorem branch_kind {k : OpKind} (h : formatOf k = some .branch) : k ∈ [OpKind.BEQ, .BNE, .BLT, .BGE, .BLTU, .BGEU] := by
  cases k <;> simp [formatOf] at h ⊢

/-- A mnemonic of branch format is that of a branch line. -/
theorem mnemonicTable_branch : ∀ e ∈ mnemonicTable, ∀ k ∈ [OpKind.BEQ, .BNE, .BLT, .BGE, .BLTU, .BGEU], e.2 = .core k →
    e.1 ∈ branchLines.map (fun l => l.1) := by decide

theorem mnemonicTable_jal : ∀ e ∈ mnemonicTable, e.2 = .core .JAL → e.1 = "jal".toList := by decide

/-- Settles O56: the line is the branch or the jump that it spells, and Decode reads its offset back. -/
theorem labelOffsetIsDifference : Obligations.LabelOffsetIsDifference := by
  intro pi sym w target hw
  obtain ⟨i, hi, rfl⟩ := encodeParsed_ok_iff.1 hw
  have hspells := spells_of_assemble hi
  refine ⟨fun k a b c hk hf ho ht => ?_, fun a b hk ho ht => ?_⟩
  · obtain ⟨l, hl, hm⟩ := List.mem_map.1 (mnemonicTable_branch _ (mem_of_lookupText hk) k (branch_kind hf) rfl)
    obtain ⟨rs1, rs2, v, -, -, hv, heven, hlo, hhi, rfl⟩ := hspells.branch l hl a b c hm.symm ho
    obtain ⟨f3, hf3⟩ := encode_branchLine l hl
    cases (targetOffset_label ht).symm.trans hv
    rw [hf3, immB_packB _ _ _ (branchFits_ofInt heven hlo hhi), toInt_ofInt_of_range (by omega) (by omega)]
  · have hm := mnemonicTable_jal _ (mem_of_lookupText hk) rfl
    obtain ⟨rd, v, hv, heven, hlo, hhi, rfl⟩ : ∃ rd v, targetOffset pi.address sym (trimText b) = some v ∧ v % 2 = 0 ∧
        -1048576 ≤ v ∧ v ≤ 1048574 ∧ i = .jal rd (BitVec.ofInt 32 v) := by
      rcases ho with ho | ho
      · obtain ⟨rd, v, -, h⟩ := hspells.jump a b hm ho
        exact ⟨rd, v, h⟩
      · obtain ⟨v, h⟩ := hspells.jumpLink b hm ho
        exact ⟨1, v, h⟩
    cases (targetOffset_label ht).symm.trans hv
    rw [encode, immJ_packJ _ (jumpFits_ofInt heven hlo hhi), toInt_ofInt_of_range (by omega) (by omega)]

-- Labels (R104).

theorem any_label_iff {label : Text} {rest : List (Text × Word)} :
    rest.any (fun e => e.1 == label) = true ↔ label ∈ rest.map (fun e => e.1) := by
  simp [List.any_eq_true]

theorem buildSymbols_nodup {labels : List (Text × Word)} (h : (labels.map (fun e => e.1)).Nodup) : buildSymbols labels = .ok labels := by
  induction labels with
  | nil => rfl
  | cons e rest ih =>
    obtain ⟨hnew, hrest⟩ := List.nodup_cons.1 h
    rw [buildSymbols, if_neg (mt any_label_iff.1 hnew), ih hrest]

theorem buildSymbols_duplicate {labels : List (Text × Word)} (h : ¬(labels.map (fun e => e.1)).Nodup) :
    ∃ label, buildSymbols labels = .error ⟨.E_DUP_LABEL, some label⟩ := by
  induction labels with
  | nil => exact absurd List.nodup_nil h
  | cons e rest ih =>
    rw [buildSymbols]
    by_cases hdup : e.1 ∈ rest.map (fun e => e.1)
    · exact ⟨e.1, if_pos (any_label_iff.2 hdup)⟩
    · obtain ⟨label, hl⟩ := ih fun hrest => h (List.nodup_cons.2 ⟨hdup, hrest⟩)
      exact ⟨label, by rw [if_neg (mt any_label_iff.1 hdup), hl]⟩

/-- Settles O59. -/
theorem duplicateLabelIsFatal : Obligations.DuplicateLabelIsFatal := fun _ => ⟨buildSymbols_nodup, buildSymbols_duplicate⟩

/-- Settles O58. -/
theorem pseudoInstructionsExpand : Obligations.PseudoInstructionsExpand :=
  fun _ _ _ _ _ => ⟨rfl, rfl, rfl, rfl, rfl, rfl, rfl, rfl⟩

end Sys2Proof.Machine
end

section
/-! PROOFS. The spellings of operands (30_encoding.md R62, R81, R82): digits, literals, register names and trimming (O60). -/

namespace Sys2Proof.Machine

open Reference

-- Digits (R82).

theorem decimalNumerals_of_code : ∀ n < 58, 48 ≤ n → (Char.ofNat n, n - 48) ∈ decimalNumerals := by decide

theorem hexNumerals_of_lower_code : ∀ n < 103, 97 ≤ n → (Char.ofNat n, n - 87) ∈ hexNumerals := by decide

theorem hexNumerals_of_upper_code : ∀ n < 71, 65 ≤ n → (Char.ofNat n, n - 55) ∈ hexNumerals := by decide

theorem decimalDigit_eq_some_iff {c : Char} {d : Nat} : decimalDigit c = some d ↔ (c, d) ∈ decimalNumerals := by
  constructor
  · intro h
    unfold decimalDigit at h
    split_ifs at h with hc
    cases h
    simpa using decimalNumerals_of_code c.toNat (by omega) hc.1
  · intro h
    fin_cases h <;> rfl

theorem hexDigit_eq_some_iff {c : Char} {d : Nat} : hexDigit c = some d ↔ (c, d) ∈ hexNumerals := by
  constructor
  · intro h
    unfold hexDigit at h
    split_ifs at h with hlower hupper
    · cases h
      simpa using hexNumerals_of_lower_code c.toNat (by omega) hlower.1
    · cases h
      simpa using hexNumerals_of_upper_code c.toNat (by omega) hupper.1
    · exact List.mem_append_left _ (List.mem_append_left _ (decimalDigit_eq_some_iff.1 h))
  · intro h
    fin_cases h <;> rfl

theorem digitsValue_cons {base acc n : Nat} {digit : Char → Option Nat} {c : Char} {t : Text} :
    digitsValue base digit acc (c :: t) = some n ↔ ∃ d, digit c = some d ∧ digitsValue base digit (acc * base + d) t = some n := by
  rw [digitsValue]
  cases digit c with
  | none => simp
  | some d => simp

/-- Digits are read as the number that they denote behind `acc`. -/
theorem digitsValue_eq_some_iff {base : Nat} {digit : Char → Option Nat} {numerals : List (Char × Nat)}
    (hdigit : ∀ c d, digit c = some d ↔ (c, d) ∈ numerals) {t : Text} : ∀ {acc n : Nat},
    digitsValue base digit acc t = some n ↔ ∃ ds : List (Char × Nat), (∀ d ∈ ds, d ∈ numerals) ∧ t = ds.map (fun d => d.1) ∧
      n = acc * base ^ ds.length + positional base (ds.map fun d => d.2) := by
  induction t with
  | nil =>
    intro acc n
    constructor
    · intro h
      cases h
      exact ⟨[], by simp, rfl, by simp [positional]⟩
    · rintro ⟨ds, -, ht, rfl⟩
      obtain rfl := List.map_eq_nil_iff.1 ht.symm
      simp [digitsValue, positional]
  | cons c rest ih =>
    intro acc n
    rw [digitsValue_cons]
    constructor
    · rintro ⟨d, hd, h⟩
      obtain ⟨ds, hds, rfl, rfl⟩ := ih.1 h
      refine ⟨(c, d) :: ds, List.forall_mem_cons.2 ⟨(hdigit c d).1 hd, hds⟩, rfl, ?_⟩
      simp only [List.map_cons, positional, List.length_cons, List.length_map]
      ring
    · rintro ⟨ds, hds, ht, rfl⟩
      obtain ⟨⟨_, d⟩, ds', rfl, rfl, rfl⟩ := List.map_eq_cons_iff.1 ht.symm
      obtain ⟨hd, hds'⟩ := List.forall_mem_cons.1 hds
      refine ⟨d, (hdigit _ d).2 hd, ih.2 ⟨ds', hds', rfl, ?_⟩⟩
      simp only [List.map_cons, positional, List.length_cons, List.length_map]
      ring

/-- One or more digits. -/
theorem digitsValue_cons_eq_some_iff {base : Nat} {digit : Char → Option Nat} {numerals : List (Char × Nat)}
    (hdigit : ∀ c d, digit c = some d ↔ (c, d) ∈ numerals) {c : Char} {t : Text} {n : Nat} :
    digitsValue base digit 0 (c :: t) = some n ↔ Denotes numerals base (c :: t) n := by
  rw [digitsValue_eq_some_iff hdigit]
  simp only [Nat.zero_mul, Nat.zero_add]
  refine exists_congr fun ds => ⟨fun h => ⟨?_, h⟩, fun h => h.2⟩
  rintro rfl
  cases h.2.1

theorem not_denotes_nil {numerals : List (Char × Nat)} {base n : Nat} : ¬Denotes numerals base [] n := by
  rintro ⟨ds, hne, -, ht, -⟩
  exact hne (List.map_eq_nil_iff.1 ht.symm)

/-- Every character of a numeral is one of its digits. -/
theorem mem_of_denotes {numerals : List (Char × Nat)} {base n : Nat} {t : Text} (h : Denotes numerals base t n) :
    ∀ c ∈ t, c ∈ numerals.map (fun d => d.1) := by
  obtain ⟨ds, -, hds, rfl, -⟩ := h
  intro c hc
  obtain ⟨d, hd, rfl⟩ := List.mem_map.1 hc
  exact List.mem_map_of_mem (hds d hd)

/-- A numeral whose second character is no decimal digit is no decimal one. -/
theorem not_denotes_decimal {c : Char} (h : c ∉ decimalNumerals.map (fun d => d.1)) {a : Char} {t : Text} {n : Nat} :
    ¬Denotes decimalNumerals 10 (a :: c :: t) n := fun hd => h (mem_of_denotes hd c (by simp))

theorem parseMagnitude_eq_some_iff {t : Text} {n : Nat} : parseMagnitude t = some n ↔ IsMagnitude t n := by
  unfold parseMagnitude IsMagnitude
  split
  case h_1 => simp [not_denotes_nil]
  case h_2 d rest =>
    rw [digitsValue_cons_eq_some_iff fun _ _ => hexDigit_eq_some_iff]
    simp [not_denotes_decimal (show 'x' ∉ _ by decide)]
  case h_3 d rest =>
    rw [digitsValue_cons_eq_some_iff fun _ _ => hexDigit_eq_some_iff]
    simp [not_denotes_decimal (show 'X' ∉ _ by decide)]
  case h_4 c rest hx hX =>
    rw [digitsValue_cons_eq_some_iff fun _ _ => decimalDigit_eq_some_iff]
    refine ⟨Or.inl, fun h => h.resolve_right ?_⟩
    rintro ⟨_ | ⟨d, ds⟩, ht, hd⟩
    · exact not_denotes_nil hd
    · rcases ht with ht | ht <;> cases ht
      · exact (hx d ds rfl rfl).elim
      · exact (hX d ds rfl rfl).elim

theorem head_of_isMagnitude {c : Char} {t : Text} {n : Nat} (h : IsMagnitude (c :: t) n) : c ∈ decimalNumerals.map (fun d => d.1) := by
  rcases h with h | ⟨ds, ht | ht, -⟩
  · exact mem_of_denotes h c List.mem_cons_self
  · cases ht
    decide
  · cases ht
    decide

theorem map_parseMagnitude_eq_some_iff {f : Nat → Int} {t : Text} {v : Int} :
    (parseMagnitude t).map f = some v ↔ ∃ n, IsMagnitude t n ∧ v = f n := by
  simp only [Option.map_eq_some_iff, parseMagnitude_eq_some_iff, eq_comm (b := v)]

theorem parseLiteral_eq_some_iff {t : Text} {v : Int} : parseLiteral t = some v ↔ IsLiteral t v := by
  unfold parseLiteral IsLiteral
  split
  case h_1 rest =>
    have hsign : ∀ n, ¬IsMagnitude ('+' :: rest) n := fun n h => absurd (head_of_isMagnitude h) (by decide)
    rw [map_parseMagnitude_eq_some_iff]
    simp [hsign]
  case h_2 rest =>
    have hsign : ∀ n, ¬IsMagnitude ('-' :: rest) n := fun n h => absurd (head_of_isMagnitude h) (by decide)
    rw [map_parseMagnitude_eq_some_iff]
    simp [hsign]
  case h_3 hplus hminus =>
    rw [map_parseMagnitude_eq_some_iff]
    refine exists_congr fun n => ⟨Or.inl, fun h => ?_⟩
    rcases h with h | ⟨m, rfl, -⟩ | ⟨m, rfl, -⟩
    · exact h
    · exact (hplus m rfl).elim
    · exact (hminus m rfl).elim

-- Registers (R81).

/-- `t` is a spelling of register `r`. -/
abbrev NamesRegister (t : Text) (r : RegIdx) : Prop := ∃ row ∈ registerNames, row.1 = r ∧ t ∈ row.2

theorem parseRegister_of_names : ∀ row ∈ registerNames, ∀ t ∈ row.2, parseRegister t = some row.1 := by decide

theorem abiNames_names : ∀ e ∈ abiNames, NamesRegister e.1 e.2 := by decide

theorem names_of_one_digit : ∀ d ∈ decimalNumerals, NamesRegister ['x', d.1] (BitVec.ofNat 5 d.2) := by decide

theorem names_of_two_digits : ∀ d ∈ decimalNumerals, d.1 ≠ '0' → ∀ e ∈ decimalNumerals, d.2 * 10 + e.2 ≤ 31 →
    NamesRegister ['x', d.1, e.1] (BitVec.ofNat 5 (d.2 * 10 + e.2)) := by decide

/-- A decimal digit but for `0` counts at least 1. -/
theorem decimalNumerals_pos : ∀ d ∈ decimalNumerals, d.1 ≠ '0' → 1 ≤ d.2 := by decide

/-- What stands before digits counts at least as much behind them. -/
theorem le_digitsValue {digit : Char → Option Nat} {t : Text} : ∀ {acc n : Nat}, digitsValue 10 digit acc t = some n → acc ≤ n := by
  induction t with
  | nil =>
    intro acc n h
    cases h
    exact Nat.le_refl _
  | cons c rest ih =>
    intro acc n h
    obtain ⟨d, -, hrest⟩ := digitsValue_cons.1 h
    have hle := ih hrest
    omega

/-- Decimal digits that do not begin with 0 and denote at most 31 are one or two. -/
theorem names_of_digits {t : Text} {n : Nat} (hzero : ∀ rest, t ≠ '0' :: rest) (hne : t ≠ []) (hn : n ≤ 31)
    (h : digitsValue 10 decimalDigit 0 t = some n) : NamesRegister ('x' :: t) (BitVec.ofNat 5 n) := by
  match t with
  | [] => exact absurd rfl hne
  | c :: rest =>
    obtain ⟨d, hd, h⟩ := digitsValue_cons.1 h
    rw [decimalDigit_eq_some_iff] at hd
    have hc : c ≠ '0' := fun e => hzero rest (by rw [e])
    have hpos : 1 ≤ d := decimalNumerals_pos _ hd hc
    match rest with
    | [] =>
      cases h
      simpa using names_of_one_digit _ hd
    | [c'] =>
      obtain ⟨e, he, h⟩ := digitsValue_cons.1 h
      rw [decimalDigit_eq_some_iff] at he
      cases h
      simpa using names_of_two_digits _ hd hc _ he (by omega)
    | c' :: c'' :: rest =>
      obtain ⟨e, -, h⟩ := digitsValue_cons.1 h
      obtain ⟨f, -, h⟩ := digitsValue_cons.1 h
      have hle := le_digitsValue h
      omega

theorem names_of_parseRegister {t : Text} {r : RegIdx} (h : parseRegister t = some r) : NamesRegister t r := by
  unfold parseRegister at h
  split at h
  case h_1 => cases h
  case h_2 =>
    cases h
    decide
  case h_3 => cases h
  case h_4 digits hne _ hzero =>
    split at h
    case h_1 n hn =>
      split at h
      case isTrue hle =>
        cases h
        exact names_of_digits hzero hne hle hn
      case isFalse => cases h
    case h_2 => cases h
  case h_5 => exact abiNames_names _ (mem_of_lookupText h)

-- Blanks (R62).

theorem isBlank_iff (c : Char) : isBlank c = true ↔ c = ' ' ∨ c = '\t' := by simp [isBlank]

theorem trimText_eq (t : Text) : trimText t = (t.dropWhile isBlank).rdropWhile isBlank := rfl

/-- Trimming removes blanks at both ends, and nothing else. -/
theorem trimText_removes (t : Text) : ∃ before after, t = before ++ trimText t ++ after ∧ ∀ c ∈ before ++ after, c = ' ' ∨ c = '\t' := by
  refine ⟨t.takeWhile isBlank, (t.dropWhile isBlank).rtakeWhile isBlank, ?_, fun c hc => (isBlank_iff c).1 ?_⟩
  · rw [trimText_eq, List.append_assoc, List.rdropWhile_append_rtakeWhile, List.takeWhile_append_dropWhile]
  · rcases List.mem_append.1 hc with hc | hc
    · exact List.mem_takeWhile_imp hc
    · exact List.mem_rtakeWhile_imp hc

/-- A trimmed text neither begins nor ends with a blank. -/
theorem trimText_ends (t : Text) (c : Char) (h : (trimText t).head? = some c ∨ (trimText t).getLast? = some c) : c ≠ ' ' ∧ c ≠ '\t' := by
  have hblank : isBlank c = false := by
    rw [trimText_eq] at h
    rcases h with h | h
    · obtain ⟨after, hafter⟩ := List.rdropWhile_prefix isBlank (t.dropWhile isBlank)
      have hhead : (t.dropWhile isBlank).head? = some c := by rw [← hafter, List.head?_append, h, Option.some_or]
      have hfirst := List.head?_dropWhile_not isBlank t
      rwa [hhead] at hfirst
    · have hne : (t.dropWhile isBlank).rdropWhile isBlank ≠ [] := fun e => by simp [e] at h
      cases (List.getLast?_eq_some_getLast hne).symm.trans h
      exact Bool.eq_false_iff.2 (List.rdropWhile_last_not isBlank _ hne)
  simpa [isBlank] using hblank

/-- Settles O60: a register by its digits or its ABI name, a literal by induction on its digits. -/
theorem operandSpellings : Obligations.OperandSpellings := by
  refine fun t => ⟨fun r => ⟨names_of_parseRegister, ?_⟩, fun v => parseLiteral_eq_some_iff, trimText_removes t, trimText_ends t⟩
  rintro ⟨row, hrow, rfl, ht⟩
  exact parseRegister_of_names row hrow t ht

end Sys2Proof.Machine
end

section
/-! PROOFS. The pipeline and Engine family (40_pipeline_engine.md): what one step does in each of its stages, the two delay slots, the host's calls,
the empty pipeline and the end of a run (O10, O13 to O18, O29, O38, O46, O49, O50), after the lemmas about the latch in Execute, the cycle's frame,
the redirect, the invariant and `observe` that they rest on. -/

namespace Sys2Proof.Machine

-- The instruction that a decoded latch holds (R111, R114).

/-- The destination of a control record is the register it was made from, or one that the instruction does not have. -/
theorem build_controlOf_destReg (k : OpKind) (rd rs1 rs2 : RegIdx) (imm : Word) :
    Instr.build k (controlOf k rd).destReg rs1 rs2 imm = Instr.build k rd rs1 rs2 imm := by
  cases k <;> rfl

/-- A latch decoded from the word of a well-formed instruction holds that instruction. -/
theorem instr_of_decoded {l : DecodeExecuteLatch} {i : Instr} (hwf : i.wellFormed = true) (hword : l.instructionWord = encode i)
    (hcontrol : l.control = (decode (encode i)).control) (himm : l.immediate = (decode (encode i)).immediate) : l.instr = i := by
  rw [DecodeExecuteLatch.instr, hcontrol, himm, hword, decode_ok (kindOfWord_encode i), controlOf_opKind, build_controlOf_destReg,
    build_encode hwf]

/-- The kind of the instruction in Execute is the opKind of its latch. -/
@[simp] theorem instr_kind (l : DecodeExecuteLatch) : l.instr.kind = l.control.opKind := build_kind _ _ _ _ _

-- The frame of a cycle (R111 to R118).

/-- Whatever Execute answers, the rest of the cycle is the same. -/
theorem cycleRest_cycle (s : State) (r : ExecResult) : CycleRest s (s.cycle r) where
  regs := cycle_reg s r
  bytes := fun _ => memNext_readByte_other s
  mwWord := rfl
  mwResult := rfl
  mwControl := rfl
  emWord := rfl
  emStore := rfl
  emControl := rfl
  decoded := by
    rw [State.cycle_de, FetchDecodeLatch.toDE, decode_rs1, decode_rs2]
    rfl
  fetched := rfl
  cycles := rfl
  illegal := rfl

/-- Every instruction completes its Execute cycle with its own result. -/
theorem completesWith_execResult (i : Instr) (s : State) :
    CompletesWith i s (execResult i s).aluResult (execResult i s).branchTaken (nextPcOf s.pc (execResult i s).redirect) :=
  ⟨_, exec_eq i s, rfl, rfl, rfl, cycleRest_cycle s _⟩

-- The redirect of the instruction in Execute (R114, R116).

/-- Clearing bit 0 is a shift to the right and back. -/
theorem and_clear_bit_zero (w : Word) : (w &&& 0xFFFFFFFE : Word) = (w >>> 1 <<< 1 : Word) := by
  have hmask : (0xFFFFFFFE : Word) = BitVec.allOnes 32 <<< 1 := by decide
  rw [hmask]
  ext i hi
  rw [BitVec.getElem_and, BitVec.getElem_shiftLeft, BitVec.getElem_shiftLeft, BitVec.getElem_allOnes, BitVec.getElem_ushiftRight]
  cases i with
  | zero => simp
  | succ i => simp [Nat.add_comm 1, BitVec.getLsbD_eq_getElem hi]

/-- The target of `jalr` is the sum with bit 0 cleared (R179). -/
theorem jalrTarget_eq (a imm : Word) : Reference.jalrTarget a imm = ((a + imm) &&& 0xFFFFFFFE : Word) := by
  rw [and_clear_bit_zero]
  apply BitVec.eq_of_toNat_eq
  rw [Reference.jalrTarget, BitVec.toNat_ofNat, BitVec.toNat_shiftLeft, BitVec.toNat_ushiftRight, BitVec.toNat_add,
    Nat.shiftLeft_eq, Nat.shiftRight_eq_div_pow]

theorem lessSigned_iff (a b : Word) : lessSigned a b = true ↔ a.toInt < b.toInt := decide_eq_true_iff

theorem not_lessSigned_iff (a b : Word) : (!lessSigned a b) = true ↔ b.toInt ≤ a.toInt := by
  rw [Bool.not_eq_true', ← Bool.not_eq_true, lessSigned_iff, Int.not_lt]

theorem lessUnsigned_iff (a b : Word) : lessUnsigned a b = true ↔ a.toNat < b.toNat := decide_eq_true_iff

theorem not_lessUnsigned_iff (a b : Word) : (!lessUnsigned a b) = true ↔ b.toNat ≤ a.toNat := by
  rw [Bool.not_eq_true', ← Bool.not_eq_true, lessUnsigned_iff, Nat.not_lt]

/-- The redirect of a latch's instruction is the one that R114 names by opKind. -/
theorem execResult_redirect (s : State) : (execResult s.de.instr s).redirect = Reference.redirect s.de := by
  unfold DecodeExecuteLatch.instr Reference.redirect
  cases s.de.control.opKind
  case BEQ => exact if_congr beq_iff_eq rfl rfl
  case BNE => exact if_congr bne_iff_ne rfl rfl
  case BLT => exact if_congr (lessSigned_iff _ _) rfl rfl
  case BGE => exact if_congr (not_lessSigned_iff _ _) rfl rfl
  case BLTU => exact if_congr (lessUnsigned_iff _ _) rfl rfl
  case BGEU => exact if_congr (not_lessUnsigned_iff _ _) rfl rfl
  case JALR => exact congrArg some (jalrTarget_eq _ _).symm
  all_goals rfl

theorem branch_redirect_isSome (target : Word) (taken : Bool) : (ExecResult.branch target taken).redirect.isSome = taken := by
  cases taken <;> rfl

/-- `branchTaken` says whether there is a redirect. -/
theorem execResult_branchTaken (i : Instr) (s : State) : (execResult i s).branchTaken = (execResult i s).redirect.isSome := by
  cases i
  case beq | bne | blt | bge | bltu | bgeu => exact (branch_redirect_isSome _ _).symm
  all_goals rfl

-- One step, stage by stage.

section
variable {s t : State} (h : step s = .next t)
include h

theorem step_cycleRest : CycleRest s t := step_next_iff.1 h ▸ cycleRest_cycle s _

theorem step_pc : t.pc = nextPcOf s.pc (Reference.redirect s.de) := by
  rw [step_next_iff.1 h, State.cycle_pc, execResult_redirect]

theorem step_branchTaken : t.em.branchTaken = (Reference.redirect s.de).isSome := by
  rw [step_next_iff.1 h, State.cycle_em, DecodeExecuteLatch.toEM_branchTaken, execResult_branchTaken, execResult_redirect]

theorem step_mem_SW (he : s.em.control.memWriteEnable = true) (hk : s.em.control.opKind = .SW) :
    t.mem = s.mem.storeWord s.em.aluResult s.em.storeValue := by
  rw [step_next_iff.1 h, State.cycle_mem, memNext_SW he hk]

theorem step_mem_SB (he : s.em.control.memWriteEnable = true) (hk : s.em.control.opKind = .SB) :
    t.mem = s.mem.storeByte s.em.aluResult s.em.storeValue := by
  rw [step_next_iff.1 h, State.cycle_mem, State.memNext, ExecuteMemoryLatch.memoryAfter, if_pos he, hk]
  rfl

/-- The load of a known kind. -/
theorem step_loadedValue_of_opKind {k : OpKind} (hread : s.em.control.memReadEnable = true) (hk : s.em.control.opKind = k) :
    t.mw.loadedValue = loadOf k t.mem s.em.aluResult := hk ▸ step_loadedValue h hread

theorem step_loadedValue_of_no_load (hread : s.em.control.memReadEnable = false) : t.mw.loadedValue = 0 := by
  rw [step_next_iff.1 h, State.cycle_mw, ExecuteMemoryLatch.toMW_loadedValue, if_neg (Bool.eq_false_iff.1 hread)]

/-- Writeback's destination holds the selected value. -/
theorem step_reg_destReg (hwrite : s.mw.control.regWriteEnable = true) (hdest : s.mw.control.destReg ≠ 0) :
    t.reg s.mw.control.destReg = if s.mw.control.memReadEnable then s.mw.loadedValue else s.mw.aluResult := by
  rw [(step_cycleRest h).regs, if_pos ⟨hwrite, hdest, rfl⟩]

/-- Writeback leaves every other register alone, and all of them without a write or with register 0 as its destination. -/
theorem step_reg_other {r : RegIdx}
    (hr : r ≠ s.mw.control.destReg ∨ s.mw.control.regWriteEnable = false ∨ s.mw.control.destReg = 0) : t.reg r = s.reg r := by
  rw [(step_cycleRest h).regs, if_neg]
  rintro ⟨hwrite, hdest, rfl⟩
  obtain hne | hdisabled | hzero := hr
  · exact hne rfl
  · cases hwrite.symm.trans hdisabled
  · exact hdest hzero

end

-- The invariant (10_state.md R22, R28 to R34).

/-- An instruction of a decoded latch that redirects is a branch or a jump by the latch's control record. -/
theorem branchKind_of_decoded {s : State} (hcontrol : s.de.control = (decode s.de.instructionWord).control)
    (h : (execResult s.de.instr s).branchTaken = true) : s.de.control.branchKind ≠ .NONE := by
  rw [control_eq_controlOf hcontrol rfl, ← instr_kind]
  exact branchKind_of_taken _ _ s h

/-- The cycle of the instruction in Execute keeps the latches coherent: each takes over the control record of the one before it. -/
theorem latchesCoherent_cycle {s : State} (h : s.LatchesCoherent) : (s.cycle (execResult s.de.instr s)).LatchesCoherent where
  fdNext := .inr rfl
  deControl := rfl
  deImm := rfl
  emControl := h.deControl
  emTaken := branchKind_of_decoded h.deControl
  mwControl := h.emControl
  mwLoaded := step_loadedValue_of_no_load (step_eq s)

/-- A step keeps the invariant. -/
theorem inv_step {s t : State} (hs : s.Inv) (h : step s = .next t) : t.Inv := by
  rw [step_next_iff.1 h]
  exact ⟨cycle_wf s _ hs.memory, (congrArg (· == 0) (commitWrite_storage_zero s.x s.mw.write)).trans hs.zero, latchesCoherent_cycle hs.latches⟩

theorem inv_writeReg {s : State} (hs : s.Inv) (i : RegIdx) (v : Word) : ({ s with x := writeReg s.x i v } : State).Inv :=
  ⟨hs.memory, (congrArg (· == 0) (writeReg_storage_zero s.x i v)).trans hs.zero, { hs.latches with }⟩

theorem inv_writeByte {s : State} (hs : s.Inv) (a : Word) (b : Byte) : ({ s with mem := s.mem.writeByte a b } : State).Inv :=
  ⟨wf_writeByte a b hs.memory, hs.zero, { hs.latches with }⟩

/-- Everything that a host call can do (R124): a step, nothing, one register write or one byte write. -/
theorem apply_cases {op : HostOp} {s t : State} (h : op.apply s = .next t) :
    (op = .step ∧ step s = .next t) ∨ t = s ∨ (∃ i v, t = { s with x := writeReg s.x i v }) ∨
      ∃ a b, t = { s with mem := s.mem.writeByte a b } := by
  cases op
  case step => exact .inl ⟨rfl, h⟩
  case observe =>
    cases h
    exact .inr (.inl rfl)
  case getRegister | getMemoryByte =>
    rw [HostOp.apply] at h
    split at h
    · cases h
      exact .inr (.inl rfl)
    · cases h
  case setRegister =>
    obtain ⟨-, -, ht⟩ := setRegister_next_iff.1 h
    exact .inr (.inr (.inl ⟨_, _, ht⟩))
  case setMemoryByte =>
    obtain ⟨-, -, ht⟩ := setMemoryByte_next_iff.1 h
    exact .inr (.inr (.inr ⟨_, _, ht⟩))

-- The empty pipeline (R125).

/-- A decoded control record without an instruction is the bubble's. -/
theorem control_eq_bubble {c : ControlFields} {w : Word} (hc : c = (decode w).control) (hk : c.opKind = .BUBBLE) :
    c = ControlFields.bubble :=
  control_eq_controlOf hc hk

theorem pipelineEmpty_iff (s : State) : s.pipelineEmpty = true ↔ (decode s.fd.instructionWord).control.opKind = .BUBBLE ∧
    s.de.control.opKind = .BUBBLE ∧ s.em.control.opKind = .BUBBLE ∧ s.mw.control.opKind = .BUBBLE := by
  simp only [State.pipelineEmpty, Bool.and_eq_true, beq_iff_eq, and_assoc]

/-- Coherent latches of an empty pipeline hold bubbles. -/
theorem idle_of_pipelineEmpty {s : State} (hs : s.LatchesCoherent) (h : s.pipelineEmpty = true) : Idle s := by
  obtain ⟨-, hde, hem, hmw⟩ := (pipelineEmpty_iff s).1 h
  exact ⟨control_eq_bubble hs.deControl hde, control_eq_bubble hs.emControl hem, control_eq_bubble hs.mwControl hmw⟩

theorem pipelineEmpty_of_idle {s : State} (h : Idle s) (hfd : (decode s.fd.instructionWord).control.opKind = .BUBBLE) :
    s.pipelineEmpty = true :=
  (pipelineEmpty_iff s).2 ⟨hfd, congrArg _ h.de, congrArg _ h.em, congrArg _ h.mw⟩

-- The end of a run (R125; 60_exceptions.md R195).

section
variable {base : Word} {n fuel : Nat} {s t : State}

/-- From a marked state nothing is observed. -/
theorem observe_of_illegalSeen (h : s.illegalSeen = true) : observe base n fuel s = .refused := by
  cases fuel <;> rw [observe, if_pos h]

/-- A drained, unmarked state is the end of its run. -/
theorem observe_of_drained (hi : s.illegalSeen = false) (hd : s.drained base n = true) : observe base n fuel s = .drained s := by
  cases fuel <;> rw [observe, if_neg (Bool.eq_false_iff.1 hi), if_pos hd]

theorem observe_zero_of_not_drained (hi : s.illegalSeen = false) (hd : s.drained base n = false) :
    observe base n 0 s = .running s := by
  rw [observe, if_neg (Bool.eq_false_iff.1 hi), if_neg (Bool.eq_false_iff.1 hd)]

theorem observe_succ_of_not_drained (hi : s.illegalSeen = false) (hd : s.drained base n = false) :
    observe base n (fuel + 1) s = observe base n fuel (s.cycle (execResult s.de.instr s)) := by
  rw [observe, if_neg (Bool.eq_false_iff.1 hi), if_neg (Bool.eq_false_iff.1 hd), step_eq]

/-- A run that ends drained starts unmarked, and ends where it starts or goes on by one step. -/
theorem observe_drained_cases (h : observe base n fuel s = .drained t) : s.illegalSeen = false ∧
    (s.drained base n = true ∧ t = s ∨
      s.drained base n = false ∧ ∃ m, fuel = m + 1 ∧ observe base n m (s.cycle (execResult s.de.instr s)) = .drained t) := by
  cases hi : s.illegalSeen with
  | true => cases (observe_of_illegalSeen hi).symm.trans h
  | false =>
    refine ⟨rfl, ?_⟩
    cases hd : s.drained base n with
    | true =>
      cases (observe_of_drained hi hd).symm.trans h
      exact .inl ⟨rfl, rfl⟩
    | false =>
      cases fuel with
      | zero => cases (observe_zero_of_not_drained hi hd).symm.trans h
      | succ m => exact .inr ⟨rfl, m, rfl, (observe_succ_of_not_drained hi hd).symm.trans h⟩

end

-- The obligations.

/-- Settles O10. -/
theorem stepRunsInstructionInExecute : Obligations.StepRunsInstructionInExecute := by
  intro s i hwf hword hcontrol himm
  rw [step, instr_of_decoded hwf hword hcontrol himm]

/-- Settles O13. -/
theorem stepIsTotal : Obligations.StepIsTotal := fun s => ⟨_, step_eq s, fun _ ho => ho.symm.trans (step_eq s)⟩

/-- Settles O14: the instruction decides the Execute result alone, and no result touches the rest of the cycle. -/
theorem executeFrame : Obligations.ExecuteFrame := by
  intro i s t h
  cases (exec_eq i s).symm.trans h
  exact cycleRest_cycle s _

/-- Settles O15. -/
theorem writebackRule : Obligations.WritebackRule := by
  intro s
  have hstep := step_eq s
  refine ⟨_, hstep, fun hwrite hdest hload => ?_, fun hwrite hdest hload => ?_, fun r hr => step_reg_other hstep (.inl hr),
    fun hnone r => step_reg_other hstep (.inr hnone)⟩
  · rw [step_reg_destReg hstep hwrite hdest, if_pos hload]
  · rw [step_reg_destReg hstep hwrite hdest, if_neg (Bool.eq_false_iff.1 hload)]

/-- Settles O16: the load reads the memory that this step's store left. -/
theorem memoryStageRule : Obligations.MemoryStageRule := fun s =>
  have hstep := step_eq s
  ⟨_, hstep, step_mem_SW hstep, step_mem_SB hstep, step_mem_of_no_store hstep, step_loadedValue_of_opKind hstep,
    step_loadedValue_of_opKind hstep, step_loadedValue_of_opKind hstep, step_loadedValue_of_no_load hstep, rfl, step_fetchedWord hstep⟩

/-- Settles O17: the redirect of the reference is the Execute result's, which the next pc and `branchTaken` follow. -/
theorem fetchAndPcRule : Obligations.FetchAndPcRule := by
  intro s
  have hpc := step_pc (step_eq s)
  have htaken := step_branchTaken (step_eq s)
  refine ⟨_, step_eq s, (cycleRest_cycle s _).fetched, fun target htarget => ?_, fun hnone => ?_⟩
  · rw [hpc, htaken, htarget]
    exact ⟨rfl, rfl⟩
  · rw [hpc, htaken, hnone]
    exact ⟨rfl, rfl⟩

/-- Settles O18. -/
theorem registerReadBeforeWrite : Obligations.RegisterReadBeforeWrite := fun s =>
  have hstep := step_eq s
  have hnext := step_eq (s.cycle (execResult s.de.instr s))
  ⟨_, _, hstep, step_operandA hstep, step_operandB hstep, hnext, step_operandA hnext, step_operandB hnext, step_reg_destReg hstep⟩

/-- Settles O29. -/
theorem bubbleExecutes : Obligations.BubbleExecutes := completesWith_execResult .bubble

/-- Settles O38: the first step fetches at the old pc and moves the pc to the target, which the second step fetches. -/
theorem twoDelaySlots : Obligations.TwoDelaySlots := by
  intro s target htarget
  refine ⟨_, _, step_eq s, step_eq _, rfl, rfl, rfl, rfl, rfl, ?_⟩
  rw [State.cycle_fd, fetch_pc, step_pc (step_eq s), htarget, nextPcOf_some]

/-- Settles O46. -/
theorem hostCallsKeepInvariant : Obligations.HostCallsKeepInvariant := by
  intro op s t hs h
  obtain ⟨hop, hstep⟩ | rfl | ⟨i, v, rfl⟩ | ⟨a, b, rfl⟩ := apply_cases h
  · exact ⟨inv_step hs hstep, fun hne => absurd hop hne⟩
  · exact ⟨hs, fun _ => ⟨rfl, rfl, rfl, rfl, rfl, rfl, rfl⟩⟩
  · exact ⟨inv_writeReg hs i v, fun _ => ⟨rfl, rfl, rfl, rfl, rfl, rfl, rfl⟩⟩
  · exact ⟨inv_writeByte hs a b, fun _ => ⟨rfl, rfl, rfl, rfl, rfl, rfl, rfl⟩⟩

/-- Settles O49: under the invariant an empty pipeline is idle, and the word that a step of it fetches is the one at the pc. -/
theorem emptyPipelineChangesNothing : Obligations.EmptyPipelineChangesNothing := by
  intro s hs hempty
  obtain ⟨t, hstep, hx, hmem, hpc, -, hidle⟩ := idle_step (idle_of_pipelineEmpty hs.latches hempty)
  have hfd : (decode (wordAhead s 0)).control = ControlFields.bubble := control_eq_bubble rfl ((pipelineEmpty_iff s).1 hempty).1
  have hfetched : t.fd.instructionWord = s.mem.readWord s.pc := by
    rw [step_fetchedWord hstep, hmem]
  refine ⟨t, hstep, fun r => by rw [State.reg, hx, State.reg], hmem, hpc, fun hbubble => ?_⟩
  exact pipelineEmpty_of_idle (hidle hfd) (by rw [hfetched, hbubble])

/-- Settles O50, by induction on the fuel: the run ends where it starts, or goes on by one step with less fuel. -/
theorem observedEndIsFirstDrained : Obligations.ObservedEndIsFirstDrained := by
  intro base n fuel s t h
  induction fuel using Nat.strong_induction_on generalizing s with
  | _ fuel ih =>
    obtain ⟨hmark, ⟨hdrained, rfl⟩ | ⟨hgoing, m, rfl, hrest⟩⟩ := observe_drained_cases h
    · exact ⟨0, fuel.zero_le, rfl, hdrained, hmark, fun j _ hj => absurd hj j.not_lt_zero⟩
    · obtain ⟨k, hk, hrun, hdrained, hend, hbefore⟩ := ih m m.lt_succ_self _ hrest
      refine ⟨k + 1, Nat.succ_le_succ hk, (runSteps_succ k s).trans hrun, hdrained, hend, fun j u hj hu => ?_⟩
      cases j with
      | zero =>
        cases hu
        exact ⟨hgoing, hmark⟩
      | succ j => exact hbefore j u (Nat.lt_of_succ_lt_succ hj) ((runSteps_succ j s).symm.trans hu)

end Sys2Proof.Machine
end

section
/-! PROOFS. The register-register family (41_alu_register.md): the result of each instruction in Execute (O24), and an instruction on its own from
its fetch to its Writeback (O30), after the lemmas about exact arithmetic and about any one instruction that bubbles surround. -/

namespace Sys2Proof.Machine

-- The results in exact arithmetic are those of the machine's operations (00_scope.md R9).

theorem Reference.add_eq (a b : Word) : Reference.add a b = a + b := rfl

theorem Reference.sub_eq (a b : Word) : Reference.sub a b = a - b := by
  apply BitVec.eq_of_toInt_eq
  rw [Reference.sub, BitVec.toInt_ofInt, BitVec.toInt_sub]

theorem Reference.slt_eq (a b : Word) : Reference.slt a b = boolWord (lessSigned a b) :=
  (if_congr (lessSigned_iff a b) rfl rfl).symm

theorem Reference.sltu_eq (a b : Word) : Reference.sltu a b = boolWord (lessUnsigned a b) :=
  (if_congr (lessUnsigned_iff a b) rfl rfl).symm

theorem Reference.shiftLeft_eq (a : Word) (n : Nat) : Reference.shiftLeft a n = a <<< n := by
  apply BitVec.eq_of_toNat_eq
  rw [Reference.shiftLeft, BitVec.toNat_ofNat, BitVec.toNat_shiftLeft, Nat.shiftLeft_eq]

theorem Reference.shiftRight_eq (a : Word) (n : Nat) : Reference.shiftRight a n = a >>> n := by
  rw [Reference.shiftRight, ← Nat.shiftRight_eq_div_pow, ← BitVec.toNat_ushiftRight, BitVec.ofNat_toNat, BitVec.setWidth_eq]

theorem Reference.shiftRightSigned_eq (a : Word) (n : Nat) : Reference.shiftRightSigned a n = a.sshiftRight n := by
  rw [Reference.shiftRightSigned, BitVec.sshiftRight, Int.shiftRight_eq_div_pow, Int.fdiv_eq_ediv_of_nonneg _ (by positivity)]
  norm_cast

/-- The shift amount `B[4:0]` as a remainder (R143, R147, R148). -/
theorem shiftAmount_eq (b : Word) : shiftAmount b = b.toNat % 32 :=
  (toNat_field b 0 5).trans (congrArg (· % 32) (Nat.div_one _))

-- One instruction that bubbles surround, from its fetch to its Writeback (70_reset_and_hazards.md R203).

section
variable {s t : State} (h : step s = .next t)
include h

theorem step_fd : t.fd = fetch t.mem s.pc := by rw [step_next_iff.1 h, State.cycle_fd, State.cycle_mem]

theorem step_de : t.de = s.fd.toDE s.x := by rw [step_next_iff.1 h, State.cycle_de]

theorem step_em : t.em = s.de.toEM (execResult s.de.instr s) := by rw [step_next_iff.1 h, State.cycle_em]

theorem step_mem : t.mem = s.em.memoryAfter s.mem := by rw [step_next_iff.1 h, State.cycle_mem, State.memNext]

theorem step_mw : t.mw = s.em.toMW t.mem := by rw [step_next_iff.1 h, State.cycle_mw, State.cycle_mem]

theorem step_x : t.x = commitWrite s.x s.mw.write := by rw [step_next_iff.1 h, State.cycle_x, State.xNext]

theorem step_pc_of_bubble (hde : s.de.control = ControlFields.bubble) : t.pc = s.pc + 4 := by
  rw [step_next_iff.1 h, execResult_bubble s hde, State.cycle_pc, ExecResult.value_redirect, nextPcOf_none]

theorem step_mem_of_bubble (hem : s.em.control = ControlFields.bubble) : t.mem = s.mem := by
  rw [step_mem h, memoryAfter_disabled _ _ (by rw [hem]; rfl)]

theorem step_x_of_bubble (hmw : s.mw.control = ControlFields.bubble) : t.x = s.x := by
  rw [step_x h, commitWrite_disabled _ _ (by rw [hmw]; rfl)]

end

theorem runSteps_add {m : Nat} {s t : State} (h : runSteps m s = .next t) (n : Nat) : runSteps (m + n) s = runSteps n t := by
  induction m generalizing s with
  | zero =>
    cases h
    rw [Nat.zero_add]
  | succ m ih =>
    rw [runSteps_succ] at h
    rw [Nat.succ_add, runSteps_succ, ih h]

/-- The word at the pc in the Execute stage, with the operands that a Decode in `s` reads, and nothing else of `s` changed. -/
def State.inExecute (s : State) : State := { s with de := (fetch s.mem s.pc).toDE s.x }

/-- What the Execute stage hands on of `i`, the instruction at the pc of `s`. -/
def State.executed (s : State) (i : Instr) : ExecuteMemoryLatch := s.inExecute.de.toEM (execResult i s.inExecute)

/-- No instruction stands in Memory or Writeback, and the two words behind the one in Execute, in FD and at the pc, are zero. -/
structure LoneInExecute (s : State) : Prop where
  em    : s.em.control = ControlFields.bubble
  mw    : s.mw.control = ControlFields.bubble
  slot1 : s.fd.instructionWord = 0
  slot2 : s.mem.readWord s.pc = 0

/-- Fetch and Decode of the word at the pc of an empty pipeline. -/
theorem runSteps_fetch_decode {s : State} {w : Word} (h : s.Alone w) : ∃ u, runSteps 2 s = .next u ∧ LoneInExecute u ∧
    u.de = s.inExecute.de ∧ u.x = s.x ∧ u.mem = s.mem ∧ u.pc = s.pc + 8 := by
  obtain ⟨t, ht, hx, hmem, hpc, hahead, hidle⟩ := idle_step ⟨h.deEmpty, h.emEmpty, h.mwEmpty⟩
  have hidle := hidle h.fdEmpty
  obtain ⟨u, hu, hx', hmem', hpc', hahead', -⟩ := idle_step hidle
  have hpc8 : u.pc = s.pc + 8 := by
    rw [hpc', hpc, BitVec.add_assoc]
    rfl
  have hslot1 : u.fd.instructionWord = 0 := by
    rw [step_fetchedWord hu, hmem', hmem, hpc, h.slot1]
  have hslot2 : u.mem.readWord u.pc = 0 := by
    rw [hmem', hmem, hpc8, h.slot2]
  have hde : u.de = s.inExecute.de := by
    rw [step_de hu, step_fd ht, hmem, hx, State.inExecute]
  exact ⟨u, by simp only [runSteps, ht, hu],
    ⟨(step_cycleRest hu).emControl.trans hidle.de, (step_cycleRest hu).mwControl.trans hidle.em, hslot1, hslot2⟩,
    hde, hx'.trans hx, hmem'.trans hmem, hpc8⟩

/-- Execute, Memory and Writeback of a lone instruction: the two empty slots behind it run as bubbles. -/
theorem runSteps_execute_memory_writeback {s : State} (h : LoneInExecute s) : ∃ v, runSteps 3 s = .next v ∧
    v.mem = (s.de.toEM (execResult s.de.instr s)).memoryAfter s.mem ∧
    v.x = commitWrite s.x ((s.de.toEM (execResult s.de.instr s)).toMW v.mem).write ∧
    v.pc = nextPcOf s.pc (execResult s.de.instr s).redirect + 8 := by
  obtain ⟨t, ht⟩ : ∃ t, step s = .next t := ⟨_, step_eq s⟩
  obtain ⟨u, hu⟩ : ∃ u, step t = .next u := ⟨_, step_eq t⟩
  obtain ⟨v, hv⟩ : ∃ v, step u = .next v := ⟨_, step_eq u⟩
  have hmem : t.mem = s.mem := step_mem_of_bubble ht h.em
  have hde : t.de.control = ControlFields.bubble := by
    rw [step_de ht, FetchDecodeLatch.toDE_control, h.slot1, decode_zero_control]
  have hde' : u.de.control = ControlFields.bubble := by
    rw [step_de hu, FetchDecodeLatch.toDE_control, step_fetchedWord ht, hmem, h.slot2, decode_zero_control]
  have hmem' : v.mem = u.mem := step_mem_of_bubble hv ((step_cycleRest hu).emControl.trans hde)
  have hx : u.x = s.x := (step_x_of_bubble hu ((step_cycleRest ht).mwControl.trans h.em)).trans (step_x_of_bubble ht h.mw)
  refine ⟨v, by simp only [runSteps, ht, hu, hv], ?_, ?_, ?_⟩
  · rw [hmem', step_mem hu, step_em ht, hmem]
  · rw [step_x hv, hx, step_mw hu, step_em ht, hmem']
  · rw [step_pc_of_bubble hv hde', step_pc_of_bubble hu hde, BitVec.add_assoc, step_next_iff.1 ht]
    rfl

/-- The whole life of a well-formed instruction on its own: its store, its register write and its redirect. -/
theorem runSteps_alone {s : State} {i : Instr} (hwf : i.wellFormed = true) (h : s.Alone (encode i)) :
    ∃ v, runSteps 5 s = .next v ∧ v.mem = (s.executed i).memoryAfter s.mem ∧
      v.x = commitWrite s.x ((s.executed i).toMW v.mem).write ∧
      v.pc = nextPcOf (s.pc + 8) (execResult i s.inExecute).redirect + 8 := by
  obtain ⟨u, hrun, hlone, hde, hx, hmem, hpc⟩ := runSteps_fetch_decode h
  obtain ⟨v, hrun', hv⟩ := runSteps_execute_memory_writeback hlone
  have hword : s.inExecute.de.instructionWord = encode i := h.word
  have hinstr : u.de.instr = i := by
    rw [hde]
    exact instr_of_decoded hwf hword (congrArg (decode · |>.control) h.word) (congrArg (decode · |>.immediate) h.word)
  rw [hinstr, execResult_congr hde, hde, hx, hmem, hpc] at hv
  exact ⟨v, (runSteps_add hrun 3).trans hrun', hv⟩

section
variable {s : State} {w : Word} (h : s.Alone w)
include h

theorem inExecute_operandA : s.inExecute.operandA = s.reg (rs1Of w) := by
  rw [State.operandA, State.inExecute, FetchDecodeLatch.toDE_operandA, fetch_instructionWord, h.word, decode_rs1, State.reg]

theorem inExecute_operandB : s.inExecute.operandB = s.reg (rs2Of w) := by
  rw [State.operandB, State.inExecute, FetchDecodeLatch.toDE_operandB, fetch_instructionWord, h.word, decode_rs2, State.reg]

theorem executed_control (i : Instr) : (s.executed i).control = (decode w).control := by
  rw [State.executed, DecodeExecuteLatch.toEM_control, State.inExecute, FetchDecodeLatch.toDE_control, fetch_instructionWord, h.word]

end

/-- The control record of an instruction that writes its result to `rd` and accesses no memory (R100). -/
structure WritesResult (c : ControlFields) (rd : RegIdx) : Prop where
  destReg : c.destReg = rd
  write   : c.regWriteEnable = true
  noLoad  : c.memReadEnable = false
  noStore : c.memWriteEnable = false

/-- A well-formed instruction on its own that writes its result to `rd` changes no other register and no byte. -/
theorem runSteps_alone_of_writesResult {s : State} {i : Instr} {rd : RegIdx} (hwf : i.wellFormed = true) (h : s.Alone (encode i))
    (hc : WritesResult (decode (encode i)).control rd) :
    ∃ v, runSteps 5 s = .next v ∧ WritesOnly s v rd (execResult i s.inExecute).aluResult ∧ SameBytes s v ∧
      v.pc = nextPcOf (s.pc + 8) (execResult i s.inExecute).redirect + 8 := by
  obtain ⟨v, hrun, hmem, hx, hpc⟩ := runSteps_alone hwf h
  rw [← executed_control h i] at hc
  rw [memoryAfter_disabled _ _ hc.noStore] at hmem
  refine ⟨v, hrun, fun r => ?_, fun a => by rw [hmem], hpc⟩
  rw [State.reg, hx, readReg_commitWrite, ExecuteMemoryLatch.toMW_control, hc.destReg, hc.write, hc.noLoad]
  refine if_congr ⟨?_, ?_⟩ rfl rfl
  · rintro ⟨-, hrd, rfl⟩
    exact ⟨rfl, hrd⟩
  · rintro ⟨rfl, hr⟩
    exact ⟨rfl, hr, rfl⟩

-- The register-register instructions (41_alu_register.md R140 to R150).

section
variable {f : (RegIdx → RegIdx → RegIdx → Instr) × (Word → Word → Word)} (hf : f ∈ Reference.aluRegister) (rd rs1 rs2 : RegIdx)
include hf

/-- The Execute body of each instruction is its result in exact arithmetic. -/
theorem execResult_aluRegister (s : State) : execResult (f.1 rd rs1 rs2) s = .value (f.2 s.operandA s.operandB) := by
  fin_cases hf <;> refine congrArg ExecResult.value (Eq.symm ?_)
  · exact Reference.add_eq _ _
  · exact Reference.sub_eq _ _
  · exact shiftAmount_eq _ ▸ Reference.shiftLeft_eq _ _
  · exact Reference.slt_eq _ _
  · exact Reference.sltu_eq _ _
  · rfl
  · exact shiftAmount_eq _ ▸ Reference.shiftRight_eq _ _
  · exact shiftAmount_eq _ ▸ Reference.shiftRightSigned_eq _ _
  · rfl
  · rfl

theorem aluRegister_wellFormed : (f.1 rd rs1 rs2).wellFormed = true := by fin_cases hf <;> rfl

/-- Each word is in R format (R65). -/
theorem encode_aluRegister : ∃ f7 f3, encode (f.1 rd rs1 rs2) = packR f7 rs2 rs1 f3 rd 0b0110011 := by
  fin_cases hf <;> exact ⟨_, _, rfl⟩

theorem controlOf_aluRegister : WritesResult (controlOf (f.1 rd rs1 rs2).kind rd) rd := by
  fin_cases hf <;> exact ⟨rfl, rfl, rfl, rfl⟩

end

/-- Settles O24. -/
theorem aluRegisterExecutes : Obligations.AluRegisterExecutes := by
  intro f hf rd rs1 rs2 s
  have hdone := completesWith_execResult (f.1 rd rs1 rs2) s
  rwa [execResult_aluRegister hf] at hdone

/-- Settles O30: the word is in R format, so that Decode reads rs1, rs2 and rd from it, and the result is that of O24. -/
theorem aluRegisterAlone : Obligations.AluRegisterAlone := by
  intro f hf rd rs1 rs2 s h
  obtain ⟨f7, f3, hword⟩ := encode_aluRegister hf rd rs1 rs2
  have hc : WritesResult (decode (encode (f.1 rd rs1 rs2))).control rd := by
    rw [decode_ok (kindOfWord_encode _), hword, rdOf_packR]
    exact controlOf_aluRegister hf rd rs1 rs2
  obtain ⟨v, hrun, hwrite, hbytes, hpc⟩ := runSteps_alone_of_writesResult (aluRegister_wellFormed hf rd rs1 rs2) h hc
  rw [execResult_aluRegister hf, inExecute_operandA h, inExecute_operandB h, hword, rs1Of_packR, rs2Of_packR] at hwrite
  rw [execResult_aluRegister hf, ExecResult.value_redirect, nextPcOf_none, BitVec.add_assoc, BitVec.add_assoc] at hpc
  exact ⟨v, hrun, hwrite, hbytes, hpc⟩

end Sys2Proof.Machine
end

section
/-! PROOFS. The register-immediate family (42_alu_immediate.md): the result of each instruction in Execute (O25), and an instruction on its own from
its fetch to its Writeback (O31). -/

namespace Sys2Proof.Machine

section
variable {f : (RegIdx → RegIdx → Word → Instr) × (Word → Word → Word)} (hf : f ∈ Reference.aluImmediate) (rd rs1 : RegIdx) (imm : Word)
include hf

/-- The Execute body of each instruction is its result in exact arithmetic; a shift takes the whole immediate as its amount. -/
theorem execResult_aluImmediate (s : State) : execResult (f.1 rd rs1 imm) s = .value (f.2 s.operandA imm) := by
  fin_cases hf <;> refine congrArg ExecResult.value (Eq.symm ?_)
  · exact Reference.add_eq _ _
  · exact Reference.slt_eq _ _
  · exact Reference.sltu_eq _ _
  · rfl
  · rfl
  · rfl
  · exact Reference.shiftLeft_eq _ _
  · exact Reference.shiftRight_eq _ _
  · exact Reference.shiftRightSigned_eq _ _

/-- The six arithmetic and logic words are in I format (R66); the three shift words hold their amount where R format has rs2 (R67). -/
theorem encode_aluImmediate : (∃ f3, encode (f.1 rd rs1 imm) = packI imm rs1 f3 rd 0b0010011) ∨
    ∃ f7 f3, encode (f.1 rd rs1 imm) = packShift f7 imm rs1 f3 rd := by
  fin_cases hf
  iterate 6 exact .inl ⟨_, rfl⟩
  all_goals exact .inr ⟨_, _, rfl⟩

theorem rdOf_encode_aluImmediate : rdOf (encode (f.1 rd rs1 imm)) = rd := by
  obtain ⟨f3, hword⟩ | ⟨f7, f3, hword⟩ := encode_aluImmediate hf rd rs1 imm
  · rw [hword, rdOf_packI]
  · rw [hword, rdOf_packShift]

theorem rs1Of_encode_aluImmediate : rs1Of (encode (f.1 rd rs1 imm)) = rs1 := by
  obtain ⟨f3, hword⟩ | ⟨f7, f3, hword⟩ := encode_aluImmediate hf rd rs1 imm
  · rw [hword, rs1Of_packI]
  · rw [hword, rs1Of_packShift]

theorem controlOf_aluImmediate : WritesResult (controlOf (f.1 rd rs1 imm).kind rd) rd := by
  fin_cases hf <;> exact ⟨rfl, rfl, rfl, rfl⟩

end

/-- Settles O25. -/
theorem aluImmediateExecutes : Obligations.AluImmediateExecutes := by
  intro f hf rd rs1 imm s
  have hdone := completesWith_execResult (f.1 rd rs1 imm) s
  rwa [execResult_aluImmediate hf] at hdone

/-- Settles O31: Decode reads rs1 and rd from the word in either of its formats, and the result is that of O25. -/
theorem aluImmediateAlone : Obligations.AluImmediateAlone := by
  intro f hf rd rs1 imm s hwf h
  have hc : WritesResult (decode (encode (f.1 rd rs1 imm))).control rd := by
    rw [decode_ok (kindOfWord_encode _), rdOf_encode_aluImmediate hf]
    exact controlOf_aluImmediate hf rd rs1 imm
  obtain ⟨v, hrun, hwrite, hbytes, hpc⟩ := runSteps_alone_of_writesResult hwf h hc
  rw [execResult_aluImmediate hf, inExecute_operandA h, rs1Of_encode_aluImmediate hf] at hwrite
  rw [execResult_aluImmediate hf, ExecResult.value_redirect, nextPcOf_none, BitVec.add_assoc, BitVec.add_assoc] at hpc
  exact ⟨v, hrun, hwrite, hbytes, hpc⟩

end Sys2Proof.Machine
end

section
/-! PROOFS. The load and store family (43_load_store.md): the effective address in Execute (O26), and a load (O32) and a store (O33) on its own from
its fetch to its Writeback, after the lemmas about any one load or store that bubbles surround. -/

namespace Sys2Proof.Machine

-- The five loads and stores (R161). Their first register is rd of a load and rs2 of a store.

section
variable {f : RegIdx → RegIdx → Word → Instr} (hf : f ∈ [Instr.lb, .lbu, .lw, .sb, .sw]) (r rs1 : RegIdx) (imm : Word)
include hf

/-- The Execute body of each is the effective address. -/
theorem execResult_loadStore (s : State) : execResult (f r rs1 imm) s = .value (s.operandA + imm) := by
  fin_cases hf <;> rfl

/-- A load's word is in I format (R66), a store's in S format (R68). -/
theorem encode_loadStore : (∃ f3, encode (f r rs1 imm) = packI imm rs1 f3 r 0b0000011) ∨
    ∃ f3, encode (f r rs1 imm) = packS imm r rs1 f3 := by
  fin_cases hf
  iterate 3 exact .inl ⟨_, rfl⟩
  all_goals exact .inr ⟨_, rfl⟩

theorem rs1Of_encode_loadStore : rs1Of (encode (f r rs1 imm)) = rs1 := by
  obtain ⟨f3, hword⟩ | ⟨f3, hword⟩ := encode_loadStore hf r rs1 imm
  · rw [hword, rs1Of_packI]
  · rw [hword, rs1Of_packS]

/-- A load or a store on its own goes to the Memory stage with its effective address, and redirects nothing. -/
theorem runSteps_alone_loadStore {s : State} (hwf : (f r rs1 imm).wellFormed = true) (h : s.Alone (encode (f r rs1 imm))) :
    (s.executed (f r rs1 imm)).aluResult = s.reg rs1 + imm ∧
    ∃ v, runSteps 5 s = .next v ∧ v.mem = (s.executed (f r rs1 imm)).memoryAfter s.mem ∧
      v.x = commitWrite s.x ((s.executed (f r rs1 imm)).toMW v.mem).write ∧ v.pc = s.pc + 20 := by
  obtain ⟨v, hrun, hmem, hx, hpc⟩ := runSteps_alone hwf h
  rw [execResult_loadStore hf, ExecResult.value_redirect, nextPcOf_none, BitVec.add_assoc, BitVec.add_assoc] at hpc
  refine ⟨?_, v, hrun, hmem, hx, hpc⟩
  rw [State.executed, DecodeExecuteLatch.toEM_aluResult, execResult_loadStore hf, ExecResult.value_aluResult, inExecute_operandA h,
    rs1Of_encode_loadStore hf]

end

/-- The control record that an instruction at the pc takes to the Memory stage is its row of R100. -/
theorem executed_control_eq_controlOf {s : State} {i : Instr} (h : s.Alone (encode i)) :
    (s.executed i).control = controlOf i.kind (rdOf (encode i)) := by
  rw [executed_control h, decode_ok (kindOfWord_encode i)]

/-- Writeback of a latch that writes a register writes the selected value to its destination, and no other register (R112). -/
theorem writesOnly_of_commitWrite {s v : State} {l : MemoryWritebackLatch} (hx : v.x = commitWrite s.x l.write)
    (hwrite : l.control.regWriteEnable = true) :
    WritesOnly s v l.control.destReg (if l.control.memReadEnable then l.loadedValue else l.aluResult) := by
  intro r
  rw [State.reg, hx, readReg_commitWrite]
  refine if_congr ⟨?_, ?_⟩ rfl rfl
  · rintro ⟨-, hdest, rfl⟩
    exact ⟨rfl, hdest⟩
  · rintro ⟨rfl, hr⟩
    exact ⟨hwrite, hr, rfl⟩

-- The loads (R162 to R164).

section
variable {f : (RegIdx → RegIdx → Word → Instr) × (Memory → Word → Word)} (hf : f ∈ Reference.loads) (rd rs1 : RegIdx) (imm : Word)
include hf

theorem mem_loadStore_of_loads : f.1 ∈ [Instr.lb, .lbu, .lw, .sb, .sw] := by
  fin_cases hf <;> simp

theorem rdOf_encode_load : rdOf (encode (f.1 rd rs1 imm)) = rd := by
  fin_cases hf <;> exact rdOf_packI _ _ _ _ _

/-- The control record of a load (R100). -/
theorem controlOf_load : controlOf (f.1 rd rs1 imm).kind rd =
    { destReg := rd, regWriteEnable := true, opKind := (f.1 rd rs1 imm).kind, memReadEnable := true, memWriteEnable := false,
      branchKind := .NONE } := by
  fin_cases hf <;> rfl

/-- What the Memory stage loads is the value of the bytes at the address, signed, unsigned or little-endian. -/
theorem loadOf_load (m : Memory) (a : Word) : loadOf (f.1 rd rs1 imm).kind m a = f.2 m a := by
  fin_cases hf
  · rfl
  · exact (BitVec.ofNat_toNat 32 (m.readByte a)).symm
  · calc m.readWord a
        = BitVec.ofNat 32 (m.readWord a).toNat := by rw [BitVec.ofNat_toNat, BitVec.setWidth_eq]
      _ = _ := congrArg (BitVec.ofNat 32) (readWord_toNat m a)

end

-- The stores (R165, R166).

section
variable {f : RegIdx → RegIdx → Word → Instr} (hf : f ∈ [Instr.sb, .sw]) (rs2 rs1 : RegIdx) (imm : Word)
include hf

theorem mem_loadStore_of_stores : f ∈ [Instr.lb, .lbu, .lw, .sb, .sw] := by
  fin_cases hf <;> simp

theorem rs2Of_encode_store : rs2Of (encode (f rs2 rs1 imm)) = rs2 := by
  fin_cases hf <;> exact rs2Of_packS _ _ _ _

/-- The control record of a store (R100). -/
theorem controlOf_store (rd : RegIdx) : controlOf (f rs2 rs1 imm).kind rd =
    { destReg := 0, regWriteEnable := false, opKind := (f rs2 rs1 imm).kind, memReadEnable := false, memWriteEnable := true,
      branchKind := .NONE } := by
  fin_cases hf <;> rfl

/-- A store on its own makes its store of x[rs2] at x[rs1] + imm and writes no register. -/
theorem runSteps_alone_store {s : State} (hwf : (f rs2 rs1 imm).wellFormed = true) (h : s.Alone (encode (f rs2 rs1 imm))) :
    ∃ v, runSteps 5 s = .next v ∧ SameRegs s v ∧ v.pc = s.pc + 20 ∧
      v.mem = storeOf (f rs2 rs1 imm).kind s.mem (s.reg rs1 + imm) (s.reg rs2) := by
  obtain ⟨haddr, v, hrun, hmem, hx, hpc⟩ := runSteps_alone_loadStore (mem_loadStore_of_stores hf) rs2 rs1 imm hwf h
  have hcontrol := (executed_control_eq_controlOf h).trans (controlOf_store hf rs2 rs1 imm _)
  have hvalue : (s.executed (f rs2 rs1 imm)).storeValue = s.reg rs2 := by
    rw [← rs2Of_encode_store hf rs2 rs1 imm]
    exact inExecute_operandB h
  rw [commitWrite_disabled _ _ (by rw [ExecuteMemoryLatch.toMW_control, hcontrol])] at hx
  rw [ExecuteMemoryLatch.memoryAfter, hcontrol, if_pos rfl, haddr, hvalue] at hmem
  exact ⟨v, hrun, fun r => by rw [State.reg, hx, State.reg], hpc, hmem⟩

end

-- The obligations.

/-- Settles O26. -/
theorem loadStoreExecutes : Obligations.LoadStoreExecutes := by
  intro f hf r rs1 imm s
  have hdone := completesWith_execResult (f r rs1 imm) s
  rwa [execResult_loadStore hf] at hdone

/-- Settles O32: the load changes no byte, so that it reads the memory of `s`, and Writeback selects the loaded value. -/
theorem loadsAlone : Obligations.LoadsAlone := by
  intro f hf rd rs1 imm s hwf h
  obtain ⟨haddr, v, hrun, hmem, hx, hpc⟩ := runSteps_alone_loadStore (mem_loadStore_of_loads hf) rd rs1 imm hwf h
  have hcontrol := executed_control_eq_controlOf h
  rw [rdOf_encode_load hf, controlOf_load hf] at hcontrol
  rw [memoryAfter_disabled _ _ (by rw [hcontrol])] at hmem
  have hwrite := writesOnly_of_commitWrite hx (by rw [ExecuteMemoryLatch.toMW_control, hcontrol])
  rw [ExecuteMemoryLatch.toMW_loadedValue, ExecuteMemoryLatch.toMW_control, hcontrol, if_pos rfl, if_pos rfl, loadOf_load hf, hmem,
    haddr] at hwrite
  exact ⟨v, hrun, hwrite, fun a => by rw [hmem], hpc⟩

/-- Settles O33: the memory after the store is that of one byte store or one word store. -/
theorem storesAlone : Obligations.StoresAlone := by
  constructor
  · intro rs2 rs1 imm s hwf h
    obtain ⟨v, hrun, hregs, hpc, hmem⟩ := runSteps_alone_store (f := .sb) (by simp) rs2 rs1 imm hwf h
    have hbyte : v.mem = s.mem.storeByte (s.reg rs1 + imm) (s.reg rs2) := hmem
    refine ⟨v, hrun, hregs, hpc, ?_⟩
    rw [hbyte]
    exact ⟨readByte_storeByte_same _ _ h.memory, fun _ => readByte_storeByte_other s.mem _⟩
  · intro rs2 rs1 imm s hwf h
    obtain ⟨v, hrun, hregs, hpc, hmem⟩ := runSteps_alone_store (f := .sw) (by simp) rs2 rs1 imm hwf h
    have hword : v.mem = s.mem.storeWord (s.reg rs1 + imm) (s.reg rs2) := hmem
    refine ⟨v, hrun, hregs, hpc, ?_⟩
    rw [hword]
    exact ⟨readByte_storeWord_zero _ _ h.memory, readByte_storeWord_one _ _ h.memory, readByte_storeWord_two _ _ h.memory,
      readByte_storeWord_three _ _ h.memory, fun _ => readByte_storeWord_other s.mem _⟩

end Sys2Proof.Machine
end

section
/-! PROOFS. The control transfer family (44_control_transfer.md): the branches (O27) and the jumps (O28) in Execute, and a branch (O34) and a jump (O35)
on its own from its fetch to its Writeback. -/

namespace Sys2Proof.Machine

-- What a control transfer at the pc finds in Execute (R170).

/-- The address of the instruction that was at the pc is that pc. -/
theorem inExecute_pcI (s : State) : s.inExecute.pcI = s.pc := BitVec.add_sub_cancel _ _

/-- The link value of the instruction that was at the pc is the address after it. -/
theorem inExecute_npc (s : State) : s.inExecute.npc = s.pc + 4 := rfl

-- An instruction that writes nothing.

/-- The control record of an instruction that writes no register and stores nothing (R100). -/
structure WritesNothing (c : ControlFields) : Prop where
  noWrite : c.regWriteEnable = false
  noStore : c.memWriteEnable = false

/-- A well-formed instruction on its own that writes nothing changes no register and no byte. -/
theorem runSteps_alone_of_writesNothing {s : State} {i : Instr} (hwf : i.wellFormed = true) (h : s.Alone (encode i))
    (hc : WritesNothing (controlOf i.kind (rdOf (encode i)))) :
    ∃ v, runSteps 5 s = .next v ∧ SameRegs s v ∧ SameBytes s v ∧
      v.pc = nextPcOf (s.pc + 8) (execResult i s.inExecute).redirect + 8 := by
  obtain ⟨v, hrun, hmem, hx, hpc⟩ := runSteps_alone hwf h
  rw [← executed_control_eq_controlOf h] at hc
  rw [memoryAfter_disabled _ _ hc.noStore] at hmem
  rw [commitWrite_disabled _ _ hc.noWrite] at hx
  exact ⟨v, hrun, fun r => by rw [State.reg, hx, State.reg], fun a => by rw [hmem], hpc⟩

-- The branches (R171 to R177).

/-- The pc behind a branch: the target if it is taken, else the sequential one. -/
theorem nextPcOf_branch (pc target : Word) (taken : Bool) :
    nextPcOf pc (ExecResult.branch target taken).redirect = if taken = true then target else pc + 4 := by
  cases taken <;> rfl

section
variable {f : (RegIdx → RegIdx → Word → Instr) × (Word → Word → Bool)} (hf : f ∈ Reference.branches) (rs1 rs2 : RegIdx) (offset : Word)
include hf

/-- The Execute body of each branch is the target with its condition. -/
theorem execResult_branch (s : State) :
    execResult (f.1 rs1 rs2 offset) s = .branch (s.pcI + offset) (f.2 s.operandA s.operandB) := by
  fin_cases hf <;> refine congrArg (ExecResult.branch _) (Bool.eq_iff_iff.2 (Iff.trans ?_ decide_eq_true_iff.symm))
  · exact beq_iff_eq
  · exact bne_iff_ne
  · exact lessSigned_iff _ _
  · exact not_lessSigned_iff _ _
  · exact lessUnsigned_iff _ _
  · exact not_lessUnsigned_iff _ _

/-- Each word is in B format (R69). -/
theorem encode_branch : ∃ f3, encode (f.1 rs1 rs2 offset) = packB offset rs2 rs1 f3 := by
  fin_cases hf <;> exact ⟨_, rfl⟩

theorem controlOf_branch (rd : RegIdx) : WritesNothing (controlOf (f.1 rs1 rs2 offset).kind rd) := by
  fin_cases hf <;> exact ⟨rfl, rfl⟩

end

/-- Settles O27. -/
theorem branchExecutes : Obligations.BranchExecutes := by
  intro f hf rs1 rs2 offset s
  have hdone := completesWith_execResult (f.1 rs1 rs2 offset) s
  rwa [execResult_branch hf, nextPcOf_branch] at hdone

/-- Settles O34: the word is in B format, so that Decode reads rs1 and rs2 from it, and the redirect is that of O27. -/
theorem branchesAlone : Obligations.BranchesAlone := by
  intro f hf rs1 rs2 offset s hwf h
  obtain ⟨f3, hword⟩ := encode_branch hf rs1 rs2 offset
  obtain ⟨v, hrun, hregs, hbytes, hpc⟩ := runSteps_alone_of_writesNothing hwf h (controlOf_branch hf rs1 rs2 offset _)
  rw [execResult_branch hf, nextPcOf_branch, inExecute_pcI, inExecute_operandA h, inExecute_operandB h, hword, rs1Of_packB,
    rs2Of_packB, apply_ite (· + 8), BitVec.add_assoc (s.pc + 8), BitVec.add_assoc s.pc 8] at hpc
  exact ⟨v, hrun, hregs, hbytes, hpc⟩

-- The jumps (R178, R179).

/-- Settles O28. -/
theorem jumpExecutes : Obligations.JumpExecutes := by
  intro rd rs1 imm s
  refine ⟨completesWith_execResult (.jal rd imm) s, ?_⟩
  rw [jalrTarget_eq]
  exact completesWith_execResult (.jalr rd rs1 imm) s

/-- A jump on its own whose word names `rd` links the address after it there, changes nothing else, and goes to its target. -/
theorem runSteps_alone_of_jump {s : State} {i : Instr} {rd : RegIdx} {target : Word} (hwf : i.wellFormed = true)
    (h : s.Alone (encode i)) (hc : WritesResult (controlOf i.kind (rdOf (encode i))) rd)
    (hjump : execResult i s.inExecute = .jump s.inExecute.npc target) :
    ∃ v, runSteps 5 s = .next v ∧ WritesOnly s v rd (s.pc + 4) ∧ SameBytes s v ∧ v.pc = target + 8 := by
  obtain ⟨v, hrun, hwrite, hbytes, hpc⟩ := runSteps_alone_of_writesResult hwf h (by rwa [decode_ok (kindOfWord_encode i)])
  rw [hjump, ExecResult.jump_aluResult, inExecute_npc] at hwrite
  rw [hjump, ExecResult.jump_redirect, nextPcOf_some] at hpc
  exact ⟨v, hrun, hwrite, hbytes, hpc⟩

/-- Settles O35: the word of `jal` is in J format and that of `jalr` in I format, and the targets are those of O28. -/
theorem jumpsAlone : Obligations.JumpsAlone := by
  constructor
  · intro rd offset s hwf h
    have hjump : execResult (.jal rd offset) s.inExecute = .jump s.inExecute.npc (s.pc + offset) := by
      rw [← inExecute_pcI s]
      rfl
    exact runSteps_alone_of_jump hwf h ⟨rdOf_packJ _ _, rfl, rfl, rfl⟩ hjump
  · intro rd rs1 imm s hwf h
    have hA : s.inExecute.operandA = s.reg rs1 := (inExecute_operandA h).trans (congrArg s.reg (rs1Of_packI _ _ _ _ _))
    have hjump : execResult (.jalr rd rs1 imm) s.inExecute = .jump s.inExecute.npc (Reference.jalrTarget (s.reg rs1) imm) := by
      rw [jalrTarget_eq, ← hA]
      rfl
    exact runSteps_alone_of_jump hwf h ⟨rdOf_packI _ _ _ _ _, rfl, rfl, rfl⟩ hjump

end Sys2Proof.Machine
end

section
/-! PROOFS. The exceptions family (60_exceptions.md): observing a run never answers a host fault, and refuses a marked state (O51). -/

namespace Sys2Proof.Machine

section
variable {base : Word} {n fuel : Nat} {s : State} {f : Fault}

/-- Where a run stops at once, refused or drained, there is no fault: one could only come of going on. -/
theorem observe_ne_hostFault_of_going
    (h : s.illegalSeen = false → s.drained base n = false → observe base n fuel s ≠ .hostFault f) :
    observe base n fuel s ≠ .hostFault f := by
  cases hi : s.illegalSeen with
  | true => simp [observe_of_illegalSeen hi]
  | false =>
    cases hd : s.drained base n with
    | true => simp [observe_of_drained hi hd]
    | false => exact h hi hd

/-- No step answers a fault (R180), so going on with less fuel answers none. -/
theorem observe_ne_hostFault : observe base n fuel s ≠ .hostFault f := by
  induction fuel generalizing s with
  | zero => exact observe_ne_hostFault_of_going fun hi hd => by simp [observe_zero_of_not_drained hi hd]
  | succ fuel ih => exact observe_ne_hostFault_of_going fun hi hd => by simpa [observe_succ_of_not_drained hi hd] using ih

end

/-- Settles O51. -/
theorem observeNeverFaults : Obligations.ObserveNeverFaults := fun _ _ _ _ _ => ⟨observe_ne_hostFault, observe_of_illegalSeen⟩

end Sys2Proof.Machine
end

section
/-! PROOFS. The reset and hazards family (70_reset_and_hazards.md): the way of a word from its fetch to Execute, the first steps after construction, a
redirect in a delay slot, and the distance at which a register write is read (O11, O37, O39, O42). -/

namespace Sys2Proof.Machine

-- The addresses that Fetch reads (R206, R207).

section
variable {s t : State} (h : step s = .next t)
include h

theorem step_fd_pc : t.fd.pc = s.pc := by rw [step_fd h, fetch_pc]

theorem step_pc_of_redirect {target : Word} (hr : Reference.redirect s.de = some target) : t.pc = target := by
  rw [step_pc h, hr, nextPcOf_some]

theorem step_pc_of_no_redirect (hr : Reference.redirect s.de = none) : t.pc = s.pc + 4 := by
  rw [step_pc h, hr, nextPcOf_none]

end

-- Registers that no Writeback reaches (R201, R205).

/-- A register that no Writeback of the run writes keeps its value. -/
theorem runSteps_reg_of_no_write {n : Nat} {s u : State} {r : RegIdx} (hrun : runSteps n s = .next u)
    (hnone : ∀ j w, j < n → runSteps j s = .next w → ¬(w.mw.control.regWriteEnable = true ∧ w.mw.control.destReg = r)) :
    u.reg r = s.reg r := by
  induction n generalizing s with
  | zero =>
    cases hrun
    rfl
  | succ n ih =>
    have hfirst := hnone 0 s n.succ_pos rfl
    have hrest := ih ((runSteps_succ n s).symm.trans hrun) fun j w hj hw =>
      hnone (j + 1) w (Nat.succ_lt_succ hj) ((runSteps_succ j s).trans hw)
    rw [hrest]
    apply step_reg_other (step_eq s)
    by_cases hdest : s.mw.control.destReg = r
    · exact .inr (.inl (Bool.eq_false_iff.2 fun hwrite => hfirst ⟨hwrite, hdest⟩))
    · exact .inl (Ne.symm hdest)

/-- The four bubbles of construction reach Writeback one after the other. -/
theorem runSteps_construct_mw_control {p : Params} {words : WordMap} {j : Nat} (hj : j < 4) {w : State}
    (hrun : runSteps j (construct p words) = .next w) : w.mw.control = ControlFields.bubble := by
  interval_cases j <;> simp only [runSteps_succ, runSteps_zero] at hrun <;> cases hrun
  · rfl
  · rfl
  · rfl
  · exact decode_zero_control

-- The instruction in Execute with its value in Writeback, two steps later, and its absence before (R204).

section
variable {s s1 s2 : State} (h1 : step s = .next s1) (h2 : step s1 = .next s2)
include h1

/-- The instruction in Execute writes no register in its own step. -/
theorem step_reg_eq_with_bubble {b1 : State} (hb1 : step { s with de := DecodeExecuteLatch.bubble } = .next b1) (r : RegIdx) :
    s1.reg r = b1.reg r := by
  rw [State.reg, State.reg, step_x h1, step_x hb1]

include h2

/-- Nor in the step of its Memory stage. -/
theorem steps_reg_eq_with_bubble {b1 b2 : State} (hb1 : step { s with de := DecodeExecuteLatch.bubble } = .next b1)
    (hb2 : step b1 = .next b2) (r : RegIdx) : s2.reg r = b2.reg r := by
  have hx : s1.x = b1.x := (step_x h1).trans (step_x hb1).symm
  have hmw : s1.mw = b1.mw := by rw [step_mw h1, step_mw hb1, step_mem h1, step_mem hb1]
  rw [State.reg, State.reg, step_x h2, step_x hb2, hx, hmw]

theorem steps_mw_control : s2.mw.control = s.de.control :=
  (step_cycleRest h2).mwControl.trans (step_cycleRest h1).emControl

/-- Its destination holds its value after the third step. -/
theorem steps_reg_destReg {s3 : State} (h3 : step s2 = .next s3) (hwrite : s.de.control.regWriteEnable = true)
    (hdest : s.de.control.destReg ≠ 0) :
    s3.reg s.de.control.destReg = if s.de.control.memReadEnable then s2.mw.loadedValue else s1.em.aluResult := by
  rw [← steps_mw_control h1 h2] at hwrite hdest ⊢
  rw [step_reg_destReg h3 hwrite hdest, (step_cycleRest h2).mwResult]

end

-- The obligations.

/-- Settles O11. -/
theorem fetchedWordReachesExecute : Obligations.FetchedWordReachesExecute := by
  intro s i hwf hword
  obtain ⟨s1, h1⟩ : ∃ s1, step s = .next s1 := ⟨_, step_eq s⟩
  obtain ⟨s2, h2⟩ : ∃ s2, step s1 = .next s2 := ⟨_, step_eq s1⟩
  have hfd : s1.fd = { pc := s.pc, instructionWord := encode i, nextPc := s.pc + 4 } := by
    rw [step_fd h1, step_mem h1, fetch, ← State.memNext, hword]
  have hinstr : s2.de.instr = i := by
    rw [step_de h2, hfd]
    exact instr_of_decoded hwf rfl rfl rfl
  refine ⟨s1, s2, h1, hfd, h2, hinstr, ?_, ?_, ?_, by rw [step, hinstr]⟩
  · rw [step_operandA h2, hfd]
  · rw [step_operandB h2, hfd]
  · rw [step_de h2, hfd, FetchDecodeLatch.toDE_nextPc]

/-- Settles O37: the consumers at distances 1 to 3 are decoded before the third step, which commits the value; no later step of the run changes it. -/
theorem registerReadAfterWriteDistance : Obligations.RegisterReadAfterWriteDistance := by
  intro s s1 s2 s3 s4 b1 b2 hwrite hdest h1 h2 h3 h4 hb1 hb2
  have hvalue := steps_reg_destReg h1 h2 h3 hwrite hdest
  refine ⟨⟨step_operandA h1, step_operandB h1⟩, ?_, ?_, ⟨step_operandA h4, step_operandB h4⟩, hvalue, ?_⟩
  · rw [← step_reg_eq_with_bubble h1 hb1, ← step_reg_eq_with_bubble h1 hb1]
    exact ⟨step_operandA h2, step_operandB h2⟩
  · rw [← steps_reg_eq_with_bubble h1 h2 hb1 hb2, ← steps_reg_eq_with_bubble h1 h2 hb1 hb2]
    exact ⟨step_operandA h3, step_operandB h3⟩
  · intro n u v hrun hstep hnone
    have hkept := (runSteps_reg_of_no_write hrun hnone).trans hvalue
    refine ⟨fun hr => ?_, fun hr => ?_⟩
    · rw [step_operandA hstep, hr, hkept]
    · rw [step_operandB hstep, hr, hkept]

/-- Settles O39: each step fetches at the pc that the one before left, and a redirect sets that pc at once. -/
theorem redirectInDelaySlot : Obligations.RedirectInDelaySlot := by
  intro s s1 s2 s3 s4 tX tY hX h1 h2 h3 h4
  have hfirst : s1.fd.pc = s.pc := step_fd_pc h1
  have hsecond : s2.fd.pc = tX := (step_fd_pc h2).trans (step_pc_of_redirect h1 hX)
  refine ⟨fun hY => ⟨hfirst, hsecond, ?_⟩, fun hnone hY => ⟨hfirst, hsecond, ?_, ?_⟩⟩
  · rw [step_fd_pc h3, step_pc_of_redirect h2 hY]
  · rw [step_fd_pc h3, step_pc_of_no_redirect h2 hnone, step_pc_of_redirect h1 hX]
  · rw [step_fd_pc h4, step_pc_of_redirect h3 hY]

/-- Settles O42: only bubbles are in Writeback in these steps. -/
theorem firstFourStepsWriteNoRegister : Obligations.FirstFourStepsWriteNoRegister := by
  intro p words n hn
  obtain ⟨t, hrun, -⟩ := runSteps_cycles n (construct p words)
  refine ⟨t, hrun, fun r => runSteps_reg_of_no_write hrun ?_⟩
  rintro j w hj hw ⟨hwrite, -⟩
  rw [runSteps_construct_mw_control (hj.trans_le hn) hw] at hwrite
  cases hwrite

end Sys2Proof.Machine
end

section
/-! PROOFS. The statements about the whole machine: its canonical memory (O9), its construction (O43, O44) and its invariant (O45), the placed
word (O12), the host's faults (O47) and the words that the spec writes out (O1). -/

namespace Sys2Proof.Machine

-- The canonical form of memory (20_memory.md R40; log 4).

theorem wfFrom_cons_iff {lo k : Nat} {b : Byte} {rest : Memory} : Memory.wfFrom lo ((k, b) :: rest) = true ↔
    lo ≤ k ∧ k < 2 ^ 32 ∧ b ≠ unlistedByte ∧ Memory.wfFrom (k + 1) rest = true := by
  simp only [Memory.wfFrom, Bool.and_eq_true, decide_eq_true_eq, bne_iff_ne, and_assoc, unlistedByte]

theorem lookup_head (k : Nat) (b : Byte) (rest : Memory) : Memory.lookup ((k, b) :: rest) k = b := if_pos rfl

theorem lookup_tail {k a : Nat} (b : Byte) (rest : Memory) (h : k ≠ a) : Memory.lookup ((k, b) :: rest) a = Memory.lookup rest a :=
  if_neg h

theorem le_of_lookup_ne {m : Memory} {lo a : Nat} (hw : Memory.wfFrom lo m = true) (h : Memory.lookup m a ≠ unlistedByte) : lo ≤ a :=
  Nat.not_lt.1 fun hlt => h (lookup_below hw hlt)

/-- Canonical memories that read alike are the same list: neither head stands before the other, and the tails read alike. -/
theorem eq_of_lookup_eq {lo lo' : Nat} {m n : Memory} (hm : Memory.wfFrom lo m = true) (hn : Memory.wfFrom lo' n = true)
    (h : ∀ a < 2 ^ 32, Memory.lookup m a = Memory.lookup n a) : m = n := by
  induction m generalizing lo lo' n with
  | nil =>
    cases n with
    | nil => rfl
    | cons f n =>
      obtain ⟨-, hj, hc, -⟩ := wfFrom_cons_iff.1 hn
      exact absurd ((lookup_head ..).symm.trans (h _ hj).symm) hc
  | cons e m ih =>
    obtain ⟨k, b⟩ := e
    obtain ⟨-, hk, hb, hm⟩ := wfFrom_cons_iff.1 hm
    cases n with
    | nil => exact absurd ((lookup_head ..).symm.trans (h k hk)) hb
    | cons f n =>
      obtain ⟨j, c⟩ := f
      obtain ⟨-, hj, hc, hn⟩ := wfFrom_cons_iff.1 hn
      have hjk : j ≤ k := le_of_lookup_ne (wfFrom_cons_iff.2 ⟨le_rfl, hj, hc, hn⟩) (by rwa [← h k hk, lookup_head])
      have hkj : k ≤ j := le_of_lookup_ne (wfFrom_cons_iff.2 ⟨le_rfl, hk, hb, hm⟩) (by rwa [h j hj, lookup_head])
      obtain rfl := Nat.le_antisymm hjk hkj
      have hbc : b = c := (lookup_head ..).symm.trans ((h j hj).trans (lookup_head ..))
      have htail : ∀ a < 2 ^ 32, Memory.lookup m a = Memory.lookup n a := by
        intro a ha
        by_cases haj : j = a
        · rw [lookup_below hm (by omega), lookup_below hn (by omega)]
        · simpa only [lookup_tail _ _ haj] using h a ha
      rw [hbc, ih hm hn htail]

-- The memory and the latches of construction (70_reset_and_hazards.md R200).

theorem wf_placeData {m : Memory} (data : List (Word × Byte)) (hw : m.wf = true) : (placeData m data).wf = true := by
  induction data generalizing m with
  | nil => exact hw
  | cons e rest ih => exact ih (wf_writeByte e.1 e.2 hw)

theorem wf_placeWords {m : Memory} (words : WordMap) (hw : m.wf = true) : (placeWords m words).wf = true := by
  induction words generalizing m with
  | nil => exact hw
  | cons e rest ih => exact ih (wf_storeWord e.1 e.2 hw)

/-- The byte at an address after a word store, by its distance from the store's address, across the top of the address space too. -/
theorem readByte_storeWord {m : Memory} (k v a : Word) (hw : m.wf = true) : (m.storeWord k v).readByte a =
    if (a - k).toNat < 4 then v.extractLsb' (8 * (a - k).toNat) 8 else m.readByte a := by
  obtain ⟨d, rfl⟩ : ∃ d, a = k + d := ⟨a - k, by rw [BitVec.add_comm, BitVec.sub_add_cancel]⟩
  rw [BitVec.add_comm k d, BitVec.add_sub_cancel, BitVec.add_comm d k]
  by_cases hd : d.toNat < 4
  · rw [if_pos hd]
    have hcases : d = 0 ∨ d = 1 ∨ d = 2 ∨ d = 3 := by bv_omega
    obtain rfl | rfl | rfl | rfl := hcases
    · exact (congrArg _ (BitVec.add_zero k)).trans (readByte_storeWord_zero k v hw)
    · exact readByte_storeWord_one k v hw
    · exact readByte_storeWord_two k v hw
    · exact readByte_storeWord_three k v hw
  · rw [if_neg hd]
    apply readByte_storeWord_other
    simp only [List.mem_cons, List.not_mem_nil, or_false]
    bv_omega

/-- The last listed byte of an address counts (log 15). -/
theorem readByte_placeData {m : Memory} (data : List (Word × Byte)) (a : Word) (hw : m.wf = true) :
    (placeData m data).readByte a = (Reference.dataByte data a).getD (m.readByte a) := by
  induction data generalizing m with
  | nil => rfl
  | cons e rest ih =>
    obtain ⟨k, b⟩ := e
    rw [placeData, ih (wf_writeByte k b hw), Reference.dataByte]
    cases Reference.dataByte rest a with
    | some c => rfl
    | none =>
      by_cases h : a = k
      · subst h
        simp only [if_pos, Option.getD_none, Option.getD_some, readByte_writeByte_same a b hw]
      · simp only [if_neg h, Option.getD_none, readByte_writeByte_other m b h]

/-- The last listed word that covers an address counts (log 15). -/
theorem readByte_placeWords {m : Memory} (words : WordMap) (a : Word) (hw : m.wf = true) :
    (placeWords m words).readByte a = (Reference.wordMapByte words a).getD (m.readByte a) := by
  induction words generalizing m with
  | nil => rfl
  | cons e rest ih =>
    obtain ⟨k, w⟩ := e
    rw [placeWords, ih (wf_storeWord k w hw), Reference.wordMapByte]
    cases Reference.wordMapByte rest a with
    | some b => rfl
    | none =>
      rw [readByte_storeWord k w a hw]
      by_cases h : (a - k).toNat < 4
      · simp only [if_pos h, Option.getD_none, Option.getD_some]
      · simp only [if_neg h, Option.getD_none]

theorem construct_readByte (p : Params) (words : WordMap) (a : Word) : (construct p words).mem.readByte a =
    (Reference.wordMapByte words a).getD ((Reference.dataByte p.dataInit a).getD 0) := by
  rw [construct, readByte_placeWords _ _ (wf_placeData _ wf_nil), readByte_placeData _ _ wf_nil]
  rfl

theorem construct_x_zero (p : Params) (words : WordMap) : (construct p words).x[0] = 0 := Vector.getElem_set_self _

theorem construct_reg_of_ne_zero (p : Params) (words : WordMap) {r : RegIdx} (hr : r ≠ 0) :
    (construct p words).reg r = p.regInit.get r.toFin := by
  have hn : 0 ≠ r.toNat := fun e => hr (BitVec.eq_of_toNat_eq e.symm)
  rw [State.reg, readReg, if_neg hr, Vector.get_eq_getElem, Vector.get_eq_getElem]
  exact Vector.getElem_set_ne (by decide) r.isLt hn

/-- The four bubbles that construction leaves are the decode of their word. -/
theorem latchesCoherent_of_bubbles {s : State} (hfd : s.fd = FetchDecodeLatch.bubble) (hde : s.de = DecodeExecuteLatch.bubble)
    (hem : s.em = ExecuteMemoryLatch.bubble) (hmw : s.mw = MemoryWritebackLatch.bubble) : s.LatchesCoherent where
  fdNext := .inl hfd
  deControl := by
    rw [hde]
    exact decode_zero_control.symm
  deImm := by
    rw [hde]
    exact decode_zero_immediate.symm
  emControl := by
    rw [hem]
    exact decode_zero_control.symm
  emTaken h := by
    rw [hem] at h
    cases h
  mwControl := by
    rw [hmw]
    exact decode_zero_control.symm
  mwLoaded _ := by
    rw [hmw]
    rfl

theorem inv_construct (p : Params) (words : WordMap) : (construct p words).Inv where
  memory := wf_placeWords words (wf_placeData p.dataInit wf_nil)
  zero := beq_iff_eq.2 (construct_x_zero p words)
  latches := latchesCoherent_of_bubbles rfl rfl rfl rfl

theorem inv_reset : State.reset.Inv where
  memory := wf_nil
  zero := by decide
  latches := latchesCoherent_of_bubbles rfl rfl rfl rfl

-- The placed word (log 6).

/-- A word's own number is placed as the word. -/
theorem withFetchWord_toNat (s : State) (w : Word) : s.withFetchWord 32 w.toNat = placeInExecute s w := by
  rw [State.withFetchWord, Nat.mod_eq_of_lt w.isLt, BitVec.ofNat_toNat, BitVec.setWidth_eq]

/-- The table decoder reads a word's own number as the word. -/
theorem decodeTableWord_toNat (w : Word) : decodeTableWord 32 w.toNat = (decodeWord w).toOption := by
  rw [decodeTableWord, Nat.mod_eq_of_lt w.isLt, BitVec.ofNat_toNat, BitVec.setWidth_eq, bytesOfWord, decodeBytes, wordOfBytes_extract]
  cases decodeWord w <;> rfl

/-- The DE latch of a placed word is Decode's of that word fetched at the pc. -/
theorem placeInExecute_de_eq {s : State} (w : Word) (hw : s.mem.wf = true) :
    (placeInExecute s w).de = ({ pc := s.pc, instructionWord := w, nextPc := s.pc + 4 } : FetchDecodeLatch).toDE s.x := by
  rw [placeInExecute_de, fetch, readWord_storeWord_same s.pc w hw]

-- The host's faults (60_exceptions.md R182; 40_pipeline_engine.md R124; log 9).

theorem isU32_iff (a : Int) : isU32 a = true ↔ 0 ≤ a ∧ a ≤ 4294967295 := decide_eq_true_iff

section
variable (s : State) {i v a b : Int}

theorem setRegister_bad_index (hi : isRegisterIndex i = false) : s.setRegister i v = .fault .hostRegisterIndex := by
  rw [State.setRegister, hi]
  rfl

theorem setRegister_bad_value (hi : isRegisterIndex i = true) (hv : isI32 v = false) :
    s.setRegister i v = .fault .hostRegisterValue := by
  rw [State.setRegister, hi, hv]
  rfl

theorem setMemoryByte_bad_address (ha : isU32 a = false) : s.setMemoryByte a b = .fault .hostAddress := by
  rw [State.setMemoryByte, ha]
  rfl

theorem setMemoryByte_bad_value (ha : isU32 a = true) (hb : isByteValue b = false) :
    s.setMemoryByte a b = .fault .hostByteValue := by
  rw [State.setMemoryByte, ha, hb]
  rfl

theorem setRegister_completes_iff : (∃ t, s.setRegister i v = .next t) ↔ isRegisterIndex i = true ∧ isI32 v = true := by
  simp only [setRegister_next_iff, exists_and_left, exists_eq, and_true]

theorem setMemoryByte_completes_iff : (∃ t, s.setMemoryByte a b = .next t) ↔ isU32 a = true ∧ isByteValue b = true := by
  simp only [setMemoryByte_next_iff, exists_and_left, exists_eq, and_true]

end

-- The obligations.

/-- Settles O45. -/
theorem stepKeepsInvariant : Obligations.StepKeepsInvariant := fun _ _ => inv_step

/-- Settles O9. -/
theorem equalReadsEqualMemories : Obligations.EqualReadsEqualMemories := fun _ _ hm hn h =>
  eq_of_lookup_eq hm hn fun a ha => h (BitVec.ofNatLT a ha)

/-- Settles O12: the placed word is read back from memory as itself, and Decode finds in it the instruction that it encodes. -/
theorem placedWordRunsNext : Obligations.PlacedWordRunsNext := by
  intro s i hw hwf
  rw [withFetchWord_toNat, decodeTableWord_toNat, decodeAfterEncode i hwf]
  have hde := placeInExecute_de_eq (encode i) hw
  have hinstr : (placeInExecute s (encode i)).de.instr = i := by
    rw [hde]
    exact instr_of_decoded hwf rfl rfl rfl
  refine ⟨rfl, by rw [step, hinstr], ?_, ?_, ?_⟩
  · rw [hde, FetchDecodeLatch.toDE_operandA, decode_rs1, State.reg]
  · rw [hde, FetchDecodeLatch.toDE_operandB, decode_rs2, State.reg]
  · rw [hde, FetchDecodeLatch.toDE_nextPc]

/-- Settles O43. -/
theorem constructionIsReset : Obligations.ConstructionIsReset := by
  intro p words
  refine ⟨rfl, readReg_zero _, construct_x_zero p words, fun _ => construct_reg_of_ne_zero p words, fun a => ?_, rfl, rfl, rfl, rfl, rfl, rfl⟩
  rw [construct_readByte]
  cases Reference.wordMapByte words a with
  | some b => rfl
  | none => cases Reference.dataByte p.dataInit a <;> rfl

/-- Settles O47. -/
theorem hostFaultsExactlyOutOfRange : Obligations.HostFaultsExactlyOutOfRange := by
  intro s i v a b
  simp only [← isRegisterIndex_iff, ← isI32_iff, ← isU32_iff, ← isByteValue_iff, Bool.not_eq_true]
  refine ⟨setRegister_completes_iff s, fun hi => ⟨setRegister_bad_index s hi, ?_⟩, setRegister_bad_value s, fun hi => ?_,
    setMemoryByte_completes_iff s, fun ha => ⟨setMemoryByte_bad_address s ha, ?_⟩, setMemoryByte_bad_value s, fun ha => ?_⟩
  · rw [State.getRegister, hi]
    rfl
  · rw [State.getRegister, if_pos hi]
  · rw [State.getMemoryByte, ha]
    rfl
  · rw [State.getMemoryByte, if_pos ha]

/-- Settles O1. -/
theorem specWordsDecode : Obligations.SpecWordsDecode := by
  unfold Obligations.SpecWordsDecode
  decide

/-- Settles O44. -/
theorem constructionMeetsInvariant : Obligations.ConstructionMeetsInvariant := ⟨inv_reset, inv_construct⟩

end Sys2Proof.Machine
end
